-- ==== Sys2Proof/Word.lean ====
section
/-! DEFINITION. The word types of the render unit (spec/00_scope.md R6): a byte, and the 64-bit
command word of a packet header (spec/30_encoding.md R60). -/

namespace Sys2Proof

/-- An unsigned 8-bit value, 0 to 255 (R6). Bit `i` of `v` is `v.getLsbD i`, bit 0 least significant. -/
abbrev Byte := BitVec 8

/-- The command word `W = H0 ++ H1 ++ ... ++ H7` of a packet header (R60). -/
abbrev HeaderWord := BitVec 64

end Sys2Proof
end

