-- ==== Sys2Proof/Syntax.lean ====
section
/-! DEFINITION. The twelve commands of spec/30_encoding.md R66 as syntax: one constructor per row
of spec/opcode_table.json, operands in the order of the assembler syntax of R74. A payload is an
operand of its command (R63, R64), so a term of `Instr` is a whole packet. -/

namespace Sys2Proof

/-- Draw modes (R67): the rule by which an incoming bit is combined with a pixel (R102). -/
inductive DrawMode where
  | set | or | xor | clear
  deriving DecidableEq, Repr

/-- Fill modes (R68): the pattern of a rectangle fill (R130). -/
inductive FillMode where
  | solid | none | hatch | checkerboard | horizontalStripes | verticalStripes
  deriving DecidableEq, Repr

/-- Rotations in quarter turns clockwise (R69). -/
inductive Rotation where
  | r0 | r90 | r180 | r270
  deriving DecidableEq, Repr

/-- The transform descriptor XF of the two blit commands (R62, R69). -/
structure Transform where
  /-- ROT, applied after the mirror. -/
  rot : Rotation
  /-- MIR, left-right in the source frame. -/
  mir : Bool
  /-- INV, complements every source bit. -/
  inv : Bool
  deriving DecidableEq, Repr

/-- The commands. Every operand byte is unsigned (R65). -/
inductive Instr where
  /-- CLEAR (R105). -/
  | clear
  /-- SETPX col, row, value, mode (R106). -/
  | setpx (col row value : Byte) (mode : DrawMode)
  /-- GETPX col, row (R108). -/
  | getpx (col row : Byte)
  /-- SETB col, bank, byte (R109). -/
  | setb (col bank byte : Byte)
  /-- GETB col, bank (R110). -/
  | getb (col bank : Byte)
  /-- LINE col0, row0, col1, row1, mode (R122). -/
  | line (col0 row0 col1 row1 : Byte) (mode : DrawMode)
  /-- FRECT col0, row0, col1, row1, fill, mode (R132). -/
  | frect (col0 row0 col1 row1 : Byte) (fill : FillMode) (mode : DrawMode)
  /-- PCHAR ch, col, row, mode (R141). -/
  | pchar (ch col row : Byte) (mode : DrawMode)
  /-- PSTR text, col, row, mode; the text is the payload (R143). -/
  | pstr (text : List Byte) (col row : Byte) (mode : DrawMode)
  /-- BLITP col, row, width, height, mode, xf, data; the data is the payload (R157). -/
  | blitp (col row width height : Byte) (mode : DrawMode) (xf : Transform) (data : List Byte)
  /-- BLITS col, row, mode, xf, data; the payload starts with the 4-byte bitmap header (R160). -/
  | blits (col row : Byte) (mode : DrawMode) (xf : Transform) (data : List Byte)
  /-- FLUSH (R170). -/
  | flush
  deriving DecidableEq, Repr

/-- The payload a packet of the command carries; empty for the commands that take none (R64). -/
def Instr.payload : Instr → List Byte
  | .clear => []
  | .setpx _ _ _ _ => []
  | .getpx _ _ => []
  | .setb _ _ _ => []
  | .getb _ _ => []
  | .line _ _ _ _ _ => []
  | .frect _ _ _ _ _ _ => []
  | .pchar _ _ _ _ => []
  | .pstr text _ _ _ => text
  | .blitp _ _ _ _ _ _ data => data
  | .blits _ _ _ _ data => data
  | .flush => []

end Sys2Proof
end

