-- ==== Sys2Proof/WellFormed.lean ====
section
/-! DEFINITION. When a term of `Instr` is a packet that can be sent: LEN is a 16-bit field
(spec/30_encoding.md R61), so a payload has at most 65535 bytes. Every other operand is exactly
its field, by its type. -/

namespace Sys2Proof

/-- The largest LEN (R61). -/
abbrev maxLen : Nat := 65535

/-- The well-formed commands: the payload's length fits LEN (R60, R61). -/
def WellFormed : Instr → Bool
  | .clear => true
  | .setpx _ _ _ _ => true
  | .getpx _ _ => true
  | .setb _ _ _ => true
  | .getb _ _ => true
  | .line _ _ _ _ _ => true
  | .frect _ _ _ _ _ _ => true
  | .pchar _ _ _ _ => true
  | .pstr text _ _ _ => decide (text.length ≤ maxLen)
  | .blitp _ _ _ _ _ _ data => decide (data.length ≤ maxLen)
  | .blits _ _ _ _ data => decide (data.length ≤ maxLen)
  | .flush => true

end Sys2Proof
end

