-- ==== Sys2Proof/Decode.lean ====
section
/-! DEFINITION. The packet decoder of spec/30_encoding.md (R60 to R73), total on any bytes and
rejecting by name, and after it the encoder, written from the same tables (R61, R62, R64, R66 to
R69). -/

namespace Sys2Proof

/-! ## Fields of the command word (R61, R62) -/

/-- OP = W[63:56]. -/
def opField (w : HeaderWord) : Byte := w.extractLsb' 56 8
/-- A = W[47:40]. -/
def aField (w : HeaderWord) : Byte := w.extractLsb' 40 8
/-- B = W[39:32]. -/
def bField (w : HeaderWord) : Byte := w.extractLsb' 32 8
/-- C = W[31:24]. -/
def cField (w : HeaderWord) : Byte := w.extractLsb' 24 8
/-- D = W[23:16]. -/
def dField (w : HeaderWord) : Byte := w.extractLsb' 16 8
/-- LEN = W[15:0]. -/
def lenField (w : HeaderWord) : BitVec 16 := w.extractLsb' 0 16
/-- MODE = CTL[1:0] = W[49:48]. -/
def modeField (w : HeaderWord) : BitVec 2 := w.extractLsb' 48 2
/-- FILL = CTL[4:2] = W[52:50]. -/
def fillField (w : HeaderWord) : BitVec 3 := w.extractLsb' 50 3
/-- ROT = CTL[3:2] = W[51:50]. -/
def rotField (w : HeaderWord) : BitVec 2 := w.extractLsb' 50 2
/-- MIR = CTL[4] = W[52]. -/
def mirField (w : HeaderWord) : Bool := w.getLsbD 52
/-- INV = CTL[5] = W[53]. -/
def invField (w : HeaderWord) : Bool := w.getLsbD 53

/-! ## Codes of the enumerations (R67, R68, R69) -/

/-- MODE values (R67); all four are legal. -/
def DrawMode.ofCode (b : BitVec 2) : DrawMode :=
  if b = 0#2 then .set else if b = 1#2 then .or else if b = 2#2 then .xor else .clear

/-- MODE values (R67). -/
def DrawMode.code : DrawMode → BitVec 2
  | .set => 0#2
  | .or => 1#2
  | .xor => 2#2
  | .clear => 3#2

/-- FILL values (R68); 6 and 7 are reserved. -/
def FillMode.ofCode (b : BitVec 3) : Option FillMode :=
  if b = 0#3 then some .solid
  else if b = 1#3 then some .none
  else if b = 2#3 then some .hatch
  else if b = 3#3 then some .checkerboard
  else if b = 4#3 then some .horizontalStripes
  else if b = 5#3 then some .verticalStripes
  else Option.none

/-- FILL values (R68). -/
def FillMode.code : FillMode → BitVec 3
  | .solid => 0#3
  | .none => 1#3
  | .hatch => 2#3
  | .checkerboard => 3#3
  | .horizontalStripes => 4#3
  | .verticalStripes => 5#3

/-- ROT values (R69); all four are legal. -/
def Rotation.ofCode (b : BitVec 2) : Rotation :=
  if b = 0#2 then .r0 else if b = 1#2 then .r90 else if b = 2#2 then .r180 else .r270

/-- ROT values (R69). -/
def Rotation.code : Rotation → BitVec 2
  | .r0 => 0#2
  | .r90 => 1#2
  | .r180 => 2#2
  | .r270 => 3#2

/-- The transform descriptor of a header word (R62). -/
def xfField (w : HeaderWord) : Transform :=
  { rot := Rotation.ofCode (rotField w), mir := mirField w, inv := invField w }

/-! ## The opcode map (R66) -/

/-- The twelve mnemonics. -/
inductive Op where
  | clear | setpx | getpx | setb | getb | line | frect | pchar | pstr | blitp | blits | flush
  deriving DecidableEq, Repr

/-- One row of the table of R66. -/
structure OpRow where
  op : Op
  /-- OP. -/
  code : Byte
  /-- mask: OP and every reserved bit of the format. -/
  mask : HeaderWord
  /-- match. -/
  pattern : HeaderWord
  deriving DecidableEq, Repr

/-- The table of R66. -/
def opRows : List OpRow :=
  [ ⟨.clear, 0x01, 0xFFFFFFFFFFFFFFFF, 0x0100000000000000⟩,
    ⟨.setpx, 0x02, 0xFFFC000000FFFFFF, 0x0200000000000000⟩,
    ⟨.getpx, 0x03, 0xFFFF0000FFFFFFFF, 0x0300000000000000⟩,
    ⟨.setb, 0x04, 0xFFFF000000FFFFFF, 0x0400000000000000⟩,
    ⟨.getb, 0x05, 0xFFFF0000FFFFFFFF, 0x0500000000000000⟩,
    ⟨.line, 0x06, 0xFFFC00000000FFFF, 0x0600000000000000⟩ ] ++
  [ ⟨.frect, 0x07, 0xFFE000000000FFFF, 0x0700000000000000⟩,
    ⟨.pchar, 0x08, 0xFFFC000000FFFFFF, 0x0800000000000000⟩,
    ⟨.pstr, 0x09, 0xFFFC0000FFFF0000, 0x0900000000000000⟩,
    ⟨.blitp, 0x0A, 0xFFC0000000000000, 0x0A00000000000000⟩,
    ⟨.blits, 0x0B, 0xFFC00000FFFF0000, 0x0B00000000000000⟩,
    ⟨.flush, 0x0C, 0xFFFFFFFFFFFFFFFF, 0x0C00000000000000⟩ ]

/-! ## Decoding -/

/-- Why a header is ILLEGAL: the three cases (a), (b), (c) of R70. -/
inductive IllegalHeader where
  /-- (a) OP is 0x00 or in 0x0D..0xFF. -/
  | unassignedOp
  /-- (b) a reserved field or bit is not zero. -/
  | reservedNotZero
  /-- (c) FRECT with FILL 6 or 7. -/
  | reservedFill
  deriving DecidableEq, Repr

/-- The operands of a command whose row has matched (R61, R62, R64, R65); the extra constraint of
FRECT is checked here (R73). -/
def operands (op : Op) (w : HeaderWord) (pay : List Byte) : Except IllegalHeader Instr :=
  let mode := DrawMode.ofCode (modeField w)
  match op with
  | .clear => .ok .clear
  | .setpx => .ok (.setpx (aField w) (bField w) (cField w) mode)
  | .getpx => .ok (.getpx (aField w) (bField w))
  | .setb => .ok (.setb (aField w) (bField w) (cField w))
  | .getb => .ok (.getb (aField w) (bField w))
  | .line => .ok (.line (aField w) (bField w) (cField w) (dField w) mode)
  | .frect =>
    match FillMode.ofCode (fillField w) with
    | some fill => .ok (.frect (aField w) (bField w) (cField w) (dField w) fill mode)
    | none => .error .reservedFill
  | .pchar => .ok (.pchar (cField w) (aField w) (bField w) mode)
  | .pstr => .ok (.pstr pay (aField w) (bField w) mode)
  | .blitp => .ok (.blitp (aField w) (bField w) (cField w) (dField w) mode (xfField w) pay)
  | .blits => .ok (.blits (aField w) (bField w) mode (xfField w) pay)
  | .flush => .ok .flush

/-- The decoding procedure of R73, on a command word and the payload that came with it. -/
def decodeCommand (w : HeaderWord) (pay : List Byte) : Except IllegalHeader Instr :=
  match opRows.find? (fun row => row.code == opField w) with
  | none => .error .unassignedOp
  | some row =>
    if w &&& row.mask = row.pattern then operands row.op w pay else .error .reservedNotZero

/-- What the unit finds at the front of its byte stream (R63). -/
inductive Decoded where
  /-- A whole packet that is a command, and the bytes after it. -/
  | command (i : Instr) (rest : List Byte)
  /-- A whole packet whose header is ILLEGAL, and the bytes after it (R70). -/
  | illegal (why : IllegalHeader) (rest : List Byte)
  /-- Fewer than 8 + LEN bytes: the unit waits. -/
  | incomplete
  deriving DecidableEq, Repr

/-- `W = H0 ++ H1 ++ ... ++ H7` (R60). -/
def headerWord (h0 h1 h2 h3 h4 h5 h6 h7 : Byte) : HeaderWord :=
  h0 ++ h1 ++ h2 ++ h3 ++ h4 ++ h5 ++ h6 ++ h7

/-- A whole packet: the command word, its payload, and the bytes after it. -/
def decodePacket (w : HeaderWord) (pay rest : List Byte) : Decoded :=
  match decodeCommand w pay with
  | .ok i => .command i rest
  | .error why => .illegal why rest

/-- The decoder on a byte stream: 8 header bytes, then LEN payload bytes, taken from the header
before it is known whether the header is legal (R63, R72). -/
def decode : List Byte → Decoded
  | h0 :: h1 :: h2 :: h3 :: h4 :: h5 :: h6 :: h7 :: tl =>
    let w := headerWord h0 h1 h2 h3 h4 h5 h6 h7
    let len := (lenField w).toNat
    if tl.length < len then .incomplete
    else decodePacket w (tl.take len) (tl.drop len)
  | _ => .incomplete

/-! ## Encoding -/

/-- CTL of a command that uses MODE only (R62). -/
def ctlMode (mode : DrawMode) : Byte := 0#6 ++ mode.code

/-- CTL of FRECT: FILL and MODE (R62). -/
def ctlFill (fill : FillMode) (mode : DrawMode) : Byte := 0#3 ++ fill.code ++ mode.code

/-- CTL of the blits: INV, MIR, ROT, MODE (R62). -/
def ctlBlit (xf : Transform) (mode : DrawMode) : Byte :=
  0#2 ++ BitVec.ofBool xf.inv ++ BitVec.ofBool xf.mir ++ xf.rot.code ++ mode.code

/-- The eight header bytes, LEN high byte first (R60, R61). -/
def headerBytes (op ctl a b c d : Byte) (len : Nat) : List Byte :=
  [op, ctl, a, b, c, d, BitVec.ofNat 8 (len / 256), BitVec.ofNat 8 (len % 256)]

/-- The header of a command, by the formats of R64 and the opcodes of R66. -/
def encodeHeader : Instr → List Byte
  | .clear => headerBytes 0x01 0 0 0 0 0 0
  | .setpx col row value mode => headerBytes 0x02 (ctlMode mode) col row value 0 0
  | .getpx col row => headerBytes 0x03 0 col row 0 0 0
  | .setb col bank byte => headerBytes 0x04 0 col bank byte 0 0
  | .getb col bank => headerBytes 0x05 0 col bank 0 0 0
  | .line col0 row0 col1 row1 mode => headerBytes 0x06 (ctlMode mode) col0 row0 col1 row1 0
  | .frect col0 row0 col1 row1 fill mode =>
      headerBytes 0x07 (ctlFill fill mode) col0 row0 col1 row1 0
  | .pchar ch col row mode => headerBytes 0x08 (ctlMode mode) col row ch 0 0
  | .pstr text col row mode => headerBytes 0x09 (ctlMode mode) col row 0 0 text.length
  | .blitp col row width height mode xf data =>
      headerBytes 0x0A (ctlBlit xf mode) col row width height data.length
  | .blits col row mode xf data => headerBytes 0x0B (ctlBlit xf mode) col row 0 0 data.length
  | .flush => headerBytes 0x0C 0 0 0 0 0 0

/-- The packet of a command: header, then payload (R60). -/
def encode (i : Instr) : List Byte := encodeHeader i ++ i.payload

/-! ## The host's numbering of an opcode-table word -/

/-- Byte `k` of the number `w`, byte 0 holding bits 7..0. -/
def numeralByte (w k : Nat) : Byte := BitVec.ofNat 8 (w >>> (8 * k))

/-- The packet whose bits are `w`, numbered as spec/opcode_table.json numbers them: bits 63..0 are
the command word, sent most significant byte first (R60), payload byte `k` is bits 64+8k+7..64+8k,
and every bit above `nbits` is 0. Assumption 11. -/
def tablePacket (nbits w : Nat) : List Byte :=
  let v := w % 2 ^ nbits
  let hdr : List Byte := [7, 6, 5, 4, 3, 2, 1, 0].map (numeralByte v)
  hdr ++ (List.range (v % 65536)).map (fun k => numeralByte v (8 + k))

/-- The instruction the decoder reads from an opcode-table word. -/
def decodeTableWord (nbits w : Nat) : Option Instr :=
  match decode (tablePacket nbits w) with
  | .command i _ => some i
  | .illegal _ _ => none
  | .incomplete => none

end Sys2Proof
end

