-- ==== Sys2Proof/Config.lean ====
section
/-! DEFINITION. What is fixed for the machine (spec/00_scope.md R5): the geometry, and the values
the spec leaves open. A value the spec gives no contents for is an `opaque` constant with no body,
so no proof can depend on it. The behaviours the spec decides but keeps behind a named field are
gathered in `Params`; their defaults stand in Machine/Operands.lean. -/

namespace Sys2Proof.Config

open Sys2Proof

/-- WIDTH (R5). -/
abbrev width : Nat := 84
/-- HEIGHT (R5). -/
abbrev height : Nat := 48
/-- BANK_COUNT = ceil(HEIGHT / 8) (R5). -/
abbrev bankCount : Nat := 6
/-- FB_LEN = BANK_COUNT * WIDTH (R5). -/
abbrev fbLen : Nat := 504
/-- FONT_FIRST (R5). -/
abbrev fontFirst : Nat := 0x20
/-- FONT_LAST (R5). -/
abbrev fontLast : Nat := 0x7E
/-- GLYPH_COLS (R5). -/
abbrev glyphCols : Nat := 5
/-- GLYPH_ROWS (R5, conflict C1). -/
abbrev glyphRows : Nat := 8
/-- CELL_ADVANCE (R5). -/
abbrev cellAdvance : Nat := 6

/-- FONT (R23): byte `i` of glyph `g`. The spec gives no byte of it (N1, D24), so it is a free
value; only `g` in 0..94 and `i` in 0..4 are read. Assumption 8. -/
opaque font : Nat → Nat → Byte

/-- CURSOR_RESET_SEQ (R172): the spec gives neither its length nor its bytes (N8, D19). Assumption 9. -/
opaque cursorResetSeq : List Byte

/-- FB byte `i` after the reset numbered `n`: arbitrary, and the same for every read until it is
written (R31, R200). A free value for each reset. Assumption 1. -/
opaque fbAfterReset : Nat → Nat → Byte

/-- A byte at an address that holds none: an FB index outside 0..503, or a payload offset at or
past LEN. The spec has no such access (R43, R54); the value is free so that nothing can rest on
it. Assumption 2. -/
opaque absentByte : Nat → Byte

/-- The parameters a step takes (R5, R9 and the table "Open parameters, collected" of
spec/92_eei_decisions.md). The drawing procedures take one as an argument, so that a claim can
quantify over all of them. -/
structure Params where
  /-- FONT (R23). -/
  font : Nat → Nat → Byte
  /-- CURSOR_RESET_SEQ (R172). -/
  cursorResetSeq : List Byte
  /-- LINE_STEP_ON_ZERO (R121). -/
  lineStepOnZero : Bool
  /-- FILL_PRED (R130): fill mode, column, row. -/
  fillPred : FillMode → Nat → Nat → Bool
  /-- XFORM (R153): ROT, MIR, w, h, x, y to the destination offset. -/
  xform : Rotation → Bool → Nat → Nat → Nat → Nat → Nat × Nat

/-- What the source itself imposes on the parameters (spec/92_eei_decisions.md, last table): the
checkerboard formula, and that the transform is the identity when ROT = MIR = 0. -/
structure Params.Allowed (P : Params) : Prop where
  checkerboard : ∀ c r, P.fillPred .checkerboard c r = decide ((c + r) % 2 = 1)
  identity : ∀ w h x y, x < w → y < h → P.xform .r0 false w h x y = (x, y)

end Sys2Proof.Config
end

