-- ==== Sys2Proof/Machine/State.lean ====
section
/-! DEFINITION. The state of the render unit (spec/10_state.md), its reasons to stop, and the state
after reset (R31). -/

namespace Sys2Proof.Machine

/-- The framebuffer as (index, byte) pairs, indexes strictly rising. The canonical form is
`Memory.wf` (Machine/Ops.lean): exactly the indexes 0..503, each once (R20). -/
abbrev Memory := List Host.Cell

/-- The level of the data/command select line during a transfer (R26). -/
inductive OutKind where
  | cmd | data
  deriving DecidableEq, Repr

/-- One element of OUT (R26). -/
structure OutElem where
  kind : OutKind
  byte : Byte
  deriving DecidableEq, Repr

/-- Why the machine has no next step. -/
inductive Fault where
  /-- Raised by `step` when the packet stream is exhausted at a packet boundary: the run has ended
  (R13). Safe: the unit waits, and no state changes. -/
  | runEnded
  /-- Raised by `step` when the stream ends inside a packet: fewer than 8 + LEN bytes have arrived
  and the unit waits (R10, R63, U16). Safe: no state changes. -/
  | incompletePacket
  deriving DecidableEq, Repr

/-- Why an instruction has no meaning in this model. -/
inductive Refusal where
  /-- Raised by `exec` for an instruction that has no meaning yet. Safe. No arm raises it: all
  twelve commands are modelled. -/
  | notModelled (mnemonic : String)
  deriving DecidableEq, Repr

/-- The state. `fb`, `status` and `result` are the block's whole state (R9, R30), `out` is the
record of what it has emitted (R26); `input` and `resets` are the model's own. -/
structure State where
  /-- FB, 504 bytes (R20, R21). -/
  fb : Memory
  /-- STATUS, 8 bits, CODE in bits 2:0 (R24). -/
  status : Byte
  /-- RESULT, 8 bits (R25). -/
  result : Byte
  /-- OUT, oldest element first (R26). -/
  out : List OutElem
  /-- The model's own: the bytes the host has sent and the unit has not consumed, oldest first
  (R8, R63). Assumption 3. -/
  input : List Byte
  /-- The model's own: how many resets the host has applied since the first one; it numbers the
  free values FB takes at each (R200). Assumption 1. -/
  resets : Nat
  deriving DecidableEq, Repr

/-- FB right after the reset numbered `n`: all 504 bytes present, each arbitrary (R31). Irreducible, so that
elaboration does not spell out the 504 cells; evaluation by the kernel is not affected. -/
@[irreducible] def Memory.afterReset (n : Nat) : Memory :=
  (List.range Config.fbLen).map (fun i => (i, Config.fbAfterReset n i))

/-- The state right after reset (R31, R200), with an empty packet stream. -/
def State.reset : State :=
  { fb := Memory.afterReset 0, status := 0x00, result := 0x00, out := [], input := [], resets := 0 }

end Sys2Proof.Machine
end

