-- ==== Sys2Proof/Machine/Flags.lean ====
section
/-! DEFINITION. The block has no flags (spec/10_state.md R29); what a command reports is the
outcome code of STATUS (R24, spec/60_exceptions.md R180). -/

namespace Sys2Proof.Machine

/-- The four abnormal outcomes (R180). CODE 5, 6 and 7 are reserved and never produced (R24). -/
inductive ErrorCode where
  | illegal | badChar | unsupportedFormat | truncatedInput
  deriving DecidableEq, Repr

/-- CODE of an error (R24, R180). -/
def ErrorCode.code : ErrorCode → BitVec 3
  | .illegal => 1#3
  | .badChar => 2#3
  | .unsupportedFormat => 3#3
  | .truncatedInput => 4#3

/-- CODE of success (R24). -/
def okCode : BitVec 3 := 0#3

/-- STATUS with a given CODE: bits 7:3 are 0 (R24). -/
def statusOf (code : BitVec 3) : Byte := 0#5 ++ code

/-- The field STATUS.CODE, bits 2:0 (R24). -/
def State.code (s : State) : BitVec 3 := s.status.extractLsb' 0 3

end Sys2Proof.Machine
end

