-- ==== Sys2Proof/Machine/Operands.lean ====
section
/-! DEFINITION. Operand forms: wrapping and addressing (spec/40_pixel_access.md R100,
spec/20_memory.md R41 to R43), truthiness and the compositor (R101, R102), the fill predicates
(spec/42_rect_fill.md R130), character codes and text layout (spec/43_glyph.md R140, R142), bitmap
addressing and the transform (spec/44_bitmap_blit.md R150 to R153), and the machine's parameters. -/

namespace Sys2Proof.Machine

/-! ## Addressing -/

/-- `WrapCol(n) = n mod 84` (R100). -/
def wrapCol (n : Nat) : Nat := n % Config.width
/-- `WrapRow(n) = n mod 48` (R100). -/
def wrapRow (n : Nat) : Nat := n % Config.height
/-- `WrapBank(n) = n mod 6` (R100). -/
def wrapBank (n : Nat) : Nat := n % Config.bankCount

/-- The byte index of PixelAddr, for a wrapped column and row (R41). -/
def pixelIndex (c r : Nat) : Nat := c + r / 8 * Config.width
/-- The bit number of PixelAddr, for a wrapped row (R41). -/
def pixelBit (r : Nat) : Nat := r % 8
/-- The byte index of a bank byte, for a wrapped column and bank (R42). -/
def bankIndex (c k : Nat) : Nat := c + k * Config.width

/-- The effective byte address of the pixel addressing mode, for any operands (R43, R178). -/
def pixelTarget (col row : Nat) : Nat := pixelIndex (wrapCol col) (wrapRow row)
/-- The effective bit of the pixel addressing mode, for any row operand (R43, R178). -/
def pixelTargetBit (row : Nat) : Nat := pixelBit (wrapRow row)
/-- The effective byte address of the bank addressing mode, for any operands (R43, R178). -/
def bankTarget (col bank : Nat) : Nat := bankIndex (wrapCol col) (wrapBank bank)

/-! ## The compositor -/

/-- A value is truthy when it is not zero (R101). -/
def truthy (value : Nat) : Bool := decide (value ≠ 0)

/-- `Compose(old, v, mode)` on one pixel (the table of R102). -/
def compose (mode : DrawMode) (old v : Bool) : Bool :=
  match mode with
  | .set => v
  | .or => old || v
  | .xor => old != v
  | .clear => old && !v

/-- The case expression of SetPixel on a whole byte, `m` the byte with the pixel's bit set (R103). -/
def composeByte (mode : DrawMode) (old m : Byte) (v : Bool) : Byte :=
  match mode with
  | .set => if v then old ||| m else old &&& ~~~m
  | .or => if v then old ||| m else old
  | .xor => if v then old ^^^ m else old
  | .clear => if v then old &&& ~~~m else old

/-! ## Fill patterns -/

/-- The default FILL_PRED (the table of R130), on unwrapped cell coordinates. Assumption 6. -/
def fillPred (fill : FillMode) (c r : Nat) : Bool :=
  match fill with
  | .solid => true
  | .none => false
  | .hatch => decide ((c + r) % 3 = 0)
  | .checkerboard => decide ((c + r) % 2 = 1)
  | .horizontalStripes => decide (r % 2 = 1)
  | .verticalStripes => decide (c % 2 = 1)

/-! ## Characters -/

/-- A character code is PRINTABLE when `0x20 <= ch <= 0x7E` (R140). -/
def printable (ch : Byte) : Bool :=
  decide (Config.fontFirst ≤ ch.toNat ∧ ch.toNat ≤ Config.fontLast)

/-- The glyph number of a printable code (R140). -/
def glyphNumber (ch : Byte) : Nat := ch.toNat - Config.fontFirst

/-- `nprint`: how many of `n` characters a row holds from wrapped column `x0` (R142). -/
def nprint (x0 n : Nat) : Nat := min n ((Config.width - x0) / Config.cellAdvance)

/-! ## Bitmaps -/

/-- `PAY[k]`. Past the end there is no byte and no command reads one (R54). -/
def payByte (pay : List Byte) (k : Nat) : Byte := (pay[k]?).getD (Config.absentByte k)

/-- `ceil(a/b)` (R6). -/
def ceilDiv (a b : Nat) : Nat := (a + b - 1) / b

/-- `NeedPacked(w, h)` (R150). -/
def needPacked (w h : Nat) : Nat := ceilDiv (w * h) 8

/-- `stride = ceil(w/8)` (R151). -/
def stride (w : Nat) : Nat := ceilDiv w 8

/-- `NeedSelf(w, h)` (R151). -/
def needSelf (w h : Nat) : Nat := 4 + stride w * h

/-- `SrcBitPacked(x, y)` (R150): bit `p mod 8` from the top of byte `p div 8`. -/
def srcBitPacked (pay : List Byte) (w x y : Nat) : Bool :=
  let p := y * w + x
  (payByte pay (p / 8)).getLsbD (7 - p % 8)

/-- `SrcBitSelf(x, y)` (R151). -/
def srcBitSelf (pay : List Byte) (w x y : Nat) : Bool :=
  (payByte pay (4 + y * stride w + x / 8)).getLsbD (7 - x % 8)

/-- The default XFORM (R153): the destination offset of source position `(x, y)`. Assumption 7. -/
def xform (rot : Rotation) (mir : Bool) (w h x y : Nat) : Nat × Nat :=
  let xm := if mir then w - 1 - x else x
  match rot with
  | .r0 => (xm, y)
  | .r90 => (h - 1 - y, xm)
  | .r180 => (w - 1 - xm, h - 1 - y)
  | .r270 => (y, w - 1 - xm)

/-- The destination size `(wd, hd)` of the transform (R153). -/
def xformSize (rot : Rotation) (w h : Nat) : Nat × Nat :=
  match rot with
  | .r0 => (w, h)
  | .r90 => (h, w)
  | .r180 => (w, h)
  | .r270 => (h, w)

/-! ## The parameters of this machine -/

/-- LINE_STEP_ON_ZERO, default false (R5, R121). Assumption 5. -/
def lineStepOnZero : Bool := false

/-- The parameters every command of this machine uses (R5): the defaults the spec gives, and the
two it leaves open. -/
def params : Config.Params :=
  { font := Config.font
    cursorResetSeq := Config.cursorResetSeq
    lineStepOnZero := lineStepOnZero
    fillPred := fillPred
    xform := xform }

end Sys2Proof.Machine
end

