-- ==== Sys2Proof/Machine/Ops.lean ====
section
/-! DEFINITION. The shared operations: reading and writing FB, SetPixel and GetPixel
(spec/40_pixel_access.md R103, R104), a command's sequence of SetPixel calls, and how a command
ends, with success or with an error (spec/60_exceptions.md R184). -/

namespace Sys2Proof.Machine

/-! ## The framebuffer -/

/-- The canonical form of FB: exactly the indexes 0..503, in rising order, each once (R20). -/
def Memory.wf (m : Memory) : Bool := decide (m.map Prod.fst = List.range Config.fbLen)

/-- `FB[a]` (R7). An index that is not listed holds no byte; no command presents one (R43).
Assumption 2. -/
def Memory.read : Memory → Nat → Byte
  | [], a => Config.absentByte a
  | (b, v) :: t, a => if a = b then v else Memory.read t a

/-- `FB[a] <- v` (R7), keeping the indexes in rising order. -/
def Memory.write : Memory → Nat → Byte → Memory
  | [], a, v => [(a, v)]
  | (b, w) :: t, a, v =>
    if a = b then (a, v) :: t
    else if a < b then (a, v) :: (b, w) :: t
    else (b, w) :: Memory.write t a v

/-- FB with every byte 0x00 (R105). Irreducible, so that elaboration does not spell out the 504
cells; evaluation by the kernel is not affected. -/
@[irreducible] def Memory.cleared : Memory := (List.range Config.fbLen).map (fun i => (i, 0x00#8))

/-- The pixel in column `c` and row `r`, both in range: bit `r mod 8` of `FB[c + (r div 8)*84]`
(R21). -/
def Memory.pixel (m : Memory) (c r : Nat) : Bool :=
  (m.read (pixelIndex c r)).getLsbD (pixelBit r)

/-! ## Pixels -/

/-- SetPixel (R103), the single write path of all drawing commands. -/
def setPixel (mode : DrawMode) (m : Memory) (col row value : Nat) : Memory :=
  let idx := pixelTarget col row
  m.write idx (composeByte mode (m.read idx) (1#8 <<< pixelTargetBit row) (truthy value))

/-- GetPixel (R104): the pixel's bit left in place. -/
def getPixel (m : Memory) (col row : Nat) : Byte :=
  m.read (pixelTarget col row) &&& (1#8 <<< pixelTargetBit row)

/-- One SetPixel call a command makes: the cell before wrapping and the value handed over. -/
structure Plot where
  col : Nat
  row : Nat
  value : Nat
  deriving DecidableEq, Repr

/-- SetPixel on one call. -/
def plot (mode : DrawMode) (m : Memory) (p : Plot) : Memory := setPixel mode m p.col p.row p.value

/-- A command's SetPixel calls, one at a time in the listed order, each on the FB the earlier ones
left (R49 b). -/
def plotAll (mode : DrawMode) (m : Memory) (ps : List Plot) : Memory := ps.foldl (plot mode) m

/-! ## The end of a command -/

/-- `STATUS <- OK` (R24). -/
def complete (s : State) : State := { s with status := statusOf okCode }

/-- `raise E` (R184): the code goes to STATUS and nothing else changes. -/
def raiseError (e : ErrorCode) (s : State) : State := { s with status := statusOf e.code }

/-- A drawing command that succeeds: its SetPixel calls, then OK. -/
def draw (mode : DrawMode) (ps : List Plot) (s : State) : State :=
  complete { s with fb := plotAll mode s.fb ps }

/-- A query that succeeds: RESULT takes the value, then OK (R25). -/
def answer (v : Byte) (s : State) : State := complete { s with result := v }

/-! ## The packet stream -/

/-- The unit has consumed a packet; `rest` is what follows it (R63). -/
def consume (rest : List Byte) (s : State) : State := { s with input := rest }

/-- A packet with an ILLEGAL header, after its bytes are consumed (R70). -/
def illegalHeader (s : State) : Host.Outcome State Fault Refusal := .next (raiseError .illegal s)

/-- Why no step exists when no whole packet has arrived (R13, R63). Assumption 4. -/
def noPacket (input : List Byte) : Fault :=
  if input = [] then .runEnded else .incompletePacket

end Sys2Proof.Machine
end

