-- ==== Sys2Proof/Machine/Blit.lean ====
section
/-! DEFINITION. The bitmap blit and transform unit (spec/44_bitmap_blit.md): the common blit loop
(R154), BLITP (R157), BLITS (R160), and the source's walking mask (R152). -/

namespace Sys2Proof.Machine

/-- The SetPixel calls of the blit loop (R154): source row-major order, each source bit complemented
when INV is set, at the destination cell plus the transformed offset. -/
def blitPlots (P : Config.Params) (w h : Nat) (srcBit : Nat → Nat → Bool) (col row : Nat)
    (xf : Transform) : List Plot :=
  (List.range h).flatMap (fun y =>
    (List.range w).map (fun x =>
      let o := P.xform xf.rot xf.mir w h x y
      ⟨col + o.1, row + o.2, (srcBit x y ^^ xf.inv).toNat⟩))

/-- BLITP (R157), for any parameters. -/
def blitpWith (P : Config.Params) (col row width height : Byte) (mode : DrawMode) (xf : Transform)
    (data : List Byte) (s : State) : Host.Outcome State Fault Refusal :=
  let w := width.toNat
  let h := height.toNat
  if data.length < needPacked w h then .next (raiseError .truncatedInput s)
  else .next (draw mode (blitPlots P w h (srcBitPacked data w) col.toNat row.toNat xf) s)

/-- BLITP (R157). -/
def execBlitp (col row width height : Byte) (mode : DrawMode) (xf : Transform) (data : List Byte)
    (s : State) : Host.Outcome State Fault Refusal :=
  blitpWith params col row width height mode xf data s

/-- BLITS (R160), for any parameters; the three checks in the order of R158. -/
def blitsWith (P : Config.Params) (col row : Byte) (mode : DrawMode) (xf : Transform)
    (data : List Byte) (s : State) : Host.Outcome State Fault Refusal :=
  if data.length < 4 then .next (raiseError .truncatedInput s)
  else if payByte data 0 ≠ 0 ∨ payByte data 1 ≠ 0 then .next (raiseError .unsupportedFormat s)
  else
    let w := (payByte data 2).toNat
    let h := (payByte data 3).toNat
    if data.length < needSelf w h then .next (raiseError .truncatedInput s)
    else .next (draw mode (blitPlots P w h (srcBitSelf data w) col.toNat row.toNat xf) s)

/-- BLITS (R160). -/
def execBlits (col row : Byte) (mode : DrawMode) (xf : Transform) (data : List Byte) (s : State) :
    Host.Outcome State Fault Refusal :=
  blitsWith params col row mode xf data s

/-! ## The walking mask (R152)

The source's own description of how a bitmap is read. No command is defined by it: the closed forms
of R150 and R151 are, and R152 says that the two agree. -/

/-- The walk's byte pointer and mask. -/
structure MaskCursor where
  ptr : Nat
  mask : Byte
  deriving DecidableEq, Repr

/-- One pixel of the walk: the mask moves down, and to the next byte when it is used up. -/
def MaskCursor.advance (k : MaskCursor) : MaskCursor :=
  if k.mask >>> 1 = 0#8 then ⟨k.ptr + 1, 0x80#8⟩ else ⟨k.ptr, k.mask >>> 1⟩

/-- The bits of `n` pixels of a row, from a cursor on. -/
def walkRow (pay : List Byte) : Nat → MaskCursor → List Bool
  | 0, _ => []
  | n + 1, k => decide (payByte pay k.ptr &&& k.mask ≠ 0#8) :: walkRow pay n k.advance

/-- The cursor after `n` pixels of a row. -/
def walkEnd : Nat → MaskCursor → MaskCursor
  | 0, k => k
  | n + 1, k => walkEnd n k.advance

/-- The end of a row: a self-describing bitmap drops a partial byte. -/
def MaskCursor.endRow (selfDescribing : Bool) (k : MaskCursor) : MaskCursor :=
  if selfDescribing ∧ k.mask ≠ 0x80#8 then ⟨k.ptr + 1, 0x80#8⟩ else k

/-- The rows of a bitmap of width `w`, from a cursor on. -/
def walkRows (selfDescribing : Bool) (pay : List Byte) (w : Nat) : Nat → MaskCursor → List (List Bool)
  | 0, _ => []
  | h + 1, k =>
    walkRow pay w k :: walkRows selfDescribing pay w h ((walkEnd w k).endRow selfDescribing)

/-- The whole walk: it starts at payload byte 0 for a packed bitmap and 4 for a self-describing
one, with mask 0x80. -/
def maskWalk (selfDescribing : Bool) (pay : List Byte) (w h : Nat) : List (List Bool) :=
  walkRows selfDescribing pay w h ⟨if selfDescribing then 4 else 0, 0x80#8⟩

end Sys2Proof.Machine
end

