-- ==== Sys2Proof/Machine/Glyph.lean ====
section
/-! DEFINITION. Glyph and string rendering (spec/43_glyph.md): DrawGlyph (R140), PCHAR (R141), PSTR
(R143). -/

namespace Sys2Proof.Machine

/-- The SetPixel calls of DrawGlyph (R140): five columns, eight bit rows each, the value being the
glyph byte masked to the row's bit. -/
def glyphPlots (P : Config.Params) (g col row : Nat) : List Plot :=
  (List.range Config.glyphCols).flatMap (fun i =>
    (List.range Config.glyphRows).map (fun b =>
      ⟨col + i, row + b, (P.font g i &&& (1#8 <<< b)).toNat⟩))

/-- PCHAR (R141), for any parameters. -/
def pcharWith (P : Config.Params) (ch col row : Byte) (mode : DrawMode) (s : State) :
    Host.Outcome State Fault Refusal :=
  if printable ch then
    .next (draw mode (glyphPlots P (glyphNumber ch) col.toNat row.toNat) s)
  else .next (raiseError .badChar s)

/-- PCHAR (R141). -/
def execPchar (ch col row : Byte) (mode : DrawMode) (s : State) :
    Host.Outcome State Fault Refusal :=
  pcharWith params ch col row mode s

/-- The SetPixel calls of a string that has been validated (R143): the first `nprint` characters,
character `k` with its left edge at `x0 + 6k`, `x0` being the wrapped start column (R142). -/
def stringPlots (P : Config.Params) (text : List Byte) (col row : Nat) : List Plot :=
  let x0 := wrapCol col
  ((text.take (nprint x0 text.length)).zipIdx).flatMap (fun chk =>
    glyphPlots P (glyphNumber chk.1) (x0 + Config.cellAdvance * chk.2) row)

/-- PSTR (R143), for any parameters: all LEN characters are validated first. -/
def pstrWith (P : Config.Params) (text : List Byte) (col row : Byte) (mode : DrawMode) (s : State) :
    Host.Outcome State Fault Refusal :=
  if text.all printable then
    .next (draw mode (stringPlots P text col.toNat row.toNat) s)
  else .next (raiseError .badChar s)

/-- PSTR (R143). -/
def execPstr (text : List Byte) (col row : Byte) (mode : DrawMode) (s : State) :
    Host.Outcome State Fault Refusal :=
  pstrWith params text col row mode s

end Sys2Proof.Machine
end

