-- ==== Sys2Proof/Machine/Line.lean ====
section
/-! DEFINITION. The line rasterizer (spec/41_line.md R121) and LINE (R122). -/

namespace Sys2Proof.Machine

/-- StepMinor (R121), `z` being LINE_STEP_ON_ZERO. -/
def stepMinor (z : Bool) (d : Int) : Bool := if z then decide (d ≥ 0) else decide (d > 0)

/-- The rasterizer between two iterations: the coordinate on the major axis, the coordinate on the
minor axis, and the error term. -/
structure LineCursor where
  p : Int
  q : Int
  d : Int
  deriving DecidableEq, Repr

/-- The body of one iteration of R121 after the cell is listed: the minor axis steps when StepMinor
says so, the error term is updated, and the major axis steps. -/
def LineCursor.advance (z : Bool) (major minor : Nat) (sp sq : Int) (k : LineCursor) :
    LineCursor :=
  if stepMinor z k.d then
    { p := k.p + sp, q := k.q + sq, d := k.d - 2 * major + 2 * minor }
  else
    { p := k.p + sp, q := k.q, d := k.d + 2 * minor }

/-- The cursors at `n + 1` successive cells, from `k` on. -/
def lineCursors (z : Bool) (major minor : Nat) (sp sq : Int) : Nat → LineCursor → List LineCursor
  | 0, k => [k]
  | n + 1, k => k :: lineCursors z major minor sp sq n (k.advance z major minor sp sq)

/-- `|a - b|` of two naturals. -/
def absDiff (a b : Nat) : Nat := (a - b) + (b - a)

/-- The step direction from `a` towards `b` (R121). -/
def direction (a b : Nat) : Int := if b ≥ a then 1 else -1

/-- The cells of LinePoints with the error term at each, `(x, y, d)` (R121). Columns are the major
axis when `dy < dx`, rows otherwise. -/
def lineTrace (z : Bool) (c0 r0 c1 r1 : Nat) : List (Int × Int × Int) :=
  let dx := absDiff c1 c0
  let dy := absDiff r1 r0
  let sx := direction c0 c1
  let sy := direction r0 r1
  if dy < dx then
    (lineCursors z dx dy sx sy dx ⟨c0, r0, 2 * dy - dx⟩).map (fun k => (k.p, k.q, k.d))
  else
    (lineCursors z dy dx sy sx dy ⟨r0, c0, 2 * dx - dy⟩).map (fun k => (k.q, k.p, k.d))

/-- LinePoints (R121). No coordinate is negative (R123 d). -/
def linePoints (z : Bool) (c0 r0 c1 r1 : Nat) : List (Nat × Nat) :=
  (lineTrace z c0 r0 c1 r1).map (fun t => (t.1.toNat, t.2.1.toNat))

/-- The SetPixel calls of LINE: value 1 at every point (R122). -/
def linePlots (P : Config.Params) (col0 row0 col1 row1 : Byte) : List Plot :=
  (linePoints P.lineStepOnZero col0.toNat row0.toNat col1.toNat row1.toNat).map
    (fun pt => ⟨pt.1, pt.2, 1⟩)

/-- LINE (R122), for any parameters. -/
def lineWith (P : Config.Params) (col0 row0 col1 row1 : Byte) (mode : DrawMode) (s : State) :
    Host.Outcome State Fault Refusal :=
  .next (draw mode (linePlots P col0 row0 col1 row1) s)

/-- LINE (R122). -/
def execLine (col0 row0 col1 row1 : Byte) (mode : DrawMode) (s : State) :
    Host.Outcome State Fault Refusal :=
  lineWith params col0 row0 col1 row1 mode s

end Sys2Proof.Machine
end

