-- ==== Sys2Proof/Machine/Pixel.lean ====
section
/-! DEFINITION. The direct access commands (spec/40_pixel_access.md): CLEAR, SETPX, GETPX, SETB,
GETB. -/

namespace Sys2Proof.Machine

/-- CLEAR (R105). -/
def execClear (s : State) : Host.Outcome State Fault Refusal :=
  .next (complete { s with fb := Memory.cleared })

/-- SETPX (R106). -/
def execSetpx (col row value : Byte) (mode : DrawMode) (s : State) :
    Host.Outcome State Fault Refusal :=
  .next (draw mode [⟨col.toNat, row.toNat, value.toNat⟩] s)

/-- GETPX (R108). -/
def execGetpx (col row : Byte) (s : State) : Host.Outcome State Fault Refusal :=
  .next (answer (getPixel s.fb col.toNat row.toNat) s)

/-- SETB (R109). -/
def execSetb (col bank byte : Byte) (s : State) : Host.Outcome State Fault Refusal :=
  .next (complete { s with fb := s.fb.write (bankTarget col.toNat bank.toNat) byte })

/-- GETB (R110). -/
def execGetb (col bank : Byte) (s : State) : Host.Outcome State Fault Refusal :=
  .next (answer (s.fb.read (bankTarget col.toNat bank.toNat)) s)

end Sys2Proof.Machine
end

