-- ==== Sys2Proof/Machine/Rect.lean ====
section
/-! DEFINITION. The rectangle fill engine and FRECT (spec/42_rect_fill.md R132). -/

namespace Sys2Proof.Machine

/-- `for v in a..b`, ascending and empty when `a > b` (R7). -/
def ascending (a b : Nat) : List Nat := List.range' a (b + 1 - a)

/-- The SetPixel calls of FRECT: columns outer, `col0..col1`; rows inner, `row0..row1-1`; the
pattern is evaluated on the cell before wrapping (R130, R132). -/
def rectPlots (P : Config.Params) (fill : FillMode) (col0 row0 col1 row1 : Nat) : List Plot :=
  (ascending col0 col1).flatMap (fun c =>
    (List.range' row0 (row1 - row0)).map (fun r => ⟨c, r, (P.fillPred fill c r).toNat⟩))

/-- FRECT (R132), for any parameters. -/
def frectWith (P : Config.Params) (col0 row0 col1 row1 : Byte) (fill : FillMode) (mode : DrawMode)
    (s : State) : Host.Outcome State Fault Refusal :=
  .next (draw mode (rectPlots P fill col0.toNat row0.toNat col1.toNat row1.toNat) s)

/-- FRECT (R132). -/
def execFrect (col0 row0 col1 row1 : Byte) (fill : FillMode) (mode : DrawMode) (s : State) :
    Host.Outcome State Fault Refusal :=
  frectWith params col0 row0 col1 row1 fill mode s

end Sys2Proof.Machine
end

