-- ==== Sys2Proof/Machine/Scanout.lean ====
section
/-! DEFINITION. The scan-out of the framebuffer, FLUSH (spec/45_scanout.md R170). -/

namespace Sys2Proof.Machine

/-- What one FLUSH hands to the transport: CURSOR_RESET_SEQ as commands, then `FB[0]` to `FB[503]`
as data, ascending (R170). -/
def scanOut (P : Config.Params) (m : Memory) : List OutElem :=
  P.cursorResetSeq.map (fun e => ⟨.cmd, e⟩) ++
    (List.range Config.fbLen).map (fun i => ⟨.data, m.read i⟩)

/-- FLUSH (R170), for any parameters. -/
def flushWith (P : Config.Params) (s : State) : Host.Outcome State Fault Refusal :=
  .next (complete { s with out := s.out ++ scanOut P s.fb })

/-- FLUSH (R170). -/
def execFlush (s : State) : Host.Outcome State Fault Refusal := flushWith params s

end Sys2Proof.Machine
end

