-- ==== Sys2Proof/Machine/Dispatch.lean ====
section
/-! DEFINITION. The meaning of each command, one arm per row of spec/opcode_table.json. -/

namespace Sys2Proof.Machine

def exec (i : Instr) (s : State) : Host.Outcome State Fault Refusal :=
  match i with
  | .clear => Sys2Proof.Machine.execClear s
  | .setpx col row value mode => Sys2Proof.Machine.execSetpx col row value mode s
  | .getpx col row => Sys2Proof.Machine.execGetpx col row s
  | .setb col bank byte => Sys2Proof.Machine.execSetb col bank byte s
  | .getb col bank => Sys2Proof.Machine.execGetb col bank s
  | .line col0 row0 col1 row1 mode => Sys2Proof.Machine.execLine col0 row0 col1 row1 mode s
  | .frect col0 row0 col1 row1 fill mode => Sys2Proof.Machine.execFrect col0 row0 col1 row1 fill mode s
  | .pchar ch col row mode => Sys2Proof.Machine.execPchar ch col row mode s
  | .pstr text col row mode => Sys2Proof.Machine.execPstr text col row mode s
  | .blitp col row width height mode xf data => Sys2Proof.Machine.execBlitp col row width height mode xf data s
  | .blits col row mode xf data => Sys2Proof.Machine.execBlits col row mode xf data s
  | .flush => Sys2Proof.Machine.execFlush s

end Sys2Proof.Machine
end

