-- ==== Sys2Proof/Machine/Step.lean ====
section
/-! DEFINITION. One step: the packet at the front of the stream is consumed and executed, or is
ILLEGAL, or is not there yet (spec/30_encoding.md R63, R70). -/

namespace Sys2Proof.Machine

/-- One step (R63). -/
def step (s : State) : Host.Outcome State Fault Refusal :=
  match decode s.input with
  | .command i rest => exec i (consume rest s)
  | .illegal _ rest => illegalHeader (consume rest s)
  | .incomplete => .fault (noPacket s.input)

/-- The state with the packet of an opcode-table word put in front of the byte stream, where the
next step takes its packet. Assumption 3. -/
def State.withFetchWord (s : State) (nbits w : Nat) : State :=
  { s with input := tablePacket nbits w ++ s.input }

end Sys2Proof.Machine
end

