-- ==== Sys2Proof/Machine/HostPort.lean ====
section
/-! DEFINITION. What the host can do to the unit between commands (spec/00_scope.md R8, R13): send
bytes, read STATUS and RESULT, see OUT, and apply reset (spec/70_reset_and_hazards.md R200). These
are the environment's operations, not steps of the unit. -/

namespace Sys2Proof.Machine

/-- The host sends bytes; they are appended to the stream (R8, R13). -/
def State.hostSend (bytes : List Byte) (s : State) : State := { s with input := s.input ++ bytes }

/-- The host reads STATUS: bits 7:3 read 0 (R24). The register is read-only to the host. -/
def State.hostStatus (s : State) : Byte := statusOf s.code

/-- The host reads RESULT (R25). The register is read-only to the host. -/
def State.hostResult (s : State) : Byte := s.result

/-- The host applies reset, at any time (R200): FB takes new arbitrary contents, STATUS and RESULT
are 0, the record OUT is empty, and bytes of a packet not yet executed are gone, so that the next
byte received is H0. Assumption 13. -/
def State.hostReset (s : State) : State :=
  { State.reset with fb := Memory.afterReset (s.resets + 1), resets := s.resets + 1 }

end Sys2Proof.Machine
end

