-- ==== Sys2Proof/Safety.lean ====
section
/-! DEFINITION. The terms in which claims about the machine are stated: the invariant, what a
command may change, the pixel-by-pixel meaning of a sequence of SetPixel calls, programs as lists
of commands, and the record of a run's outcome codes (spec/60_exceptions.md R186). -/

namespace Sys2Proof.Machine

/-- What holds of every state of the unit: FB is the 504-byte array (R20), and STATUS holds one of
the codes 0..4 with bits 7:3 zero (R24). -/
structure MachineInv (s : State) : Prop where
  fb : s.fb.wf = true
  status : s.status.toNat ≤ 4

/-- A command that completed with OK and wrote FB at most: RESULT, OUT, the stream and the reset
count are as before. -/
structure OkDrawing (s t : State) : Prop where
  status : t.status = 0x00
  result : t.result = s.result
  out : t.out = s.out
  input : t.input = s.input
  resets : t.resets = s.resets

/-- The call `p` goes to pixel `(c, r)` once wrapped (R43). -/
def Plot.hits (p : Plot) (c r : Nat) : Prop := wrapCol p.col = c ∧ wrapRow p.row = r

/-- The bit a pixel ends with: composed with each call that goes to it, in order, and with no other
(R49 b, R102). -/
def composeHits (mode : DrawMode) (c r : Nat) (ps : List Plot) (old : Bool) : Bool :=
  ps.foldl
    (fun b p => if wrapCol p.col = c ∧ wrapRow p.row = r then compose mode b (truthy p.value) else b)
    old

/-- FB `m'` is FB `m` after exactly the SetPixel calls `ps`: every pixel has the bit that
`composeHits` gives, and every byte no call goes to reads as before. -/
structure Drawn (mode : DrawMode) (ps : List Plot) (m m' : Memory) : Prop where
  pixels : ∀ c r, c < Config.width → r < Config.height →
    m'.pixel c r = composeHits mode c r ps (m.pixel c r)
  bytes : ∀ a, (∀ p ∈ ps, pixelTarget p.col p.row ≠ a) → m'.read a = m.read a

/-- FB `m'` is FB `m` after calls to cells that are distinct pixels once wrapped, `R x y v` saying
that cell `(x, y)` receives the bit `v`: each such pixel is composed with its bit once, and every
other pixel, and every byte none of them lies in, is as before. -/
structure DrawnCells (mode : DrawMode) (R : Nat → Nat → Bool → Prop) (m m' : Memory) : Prop where
  hit : ∀ x y v, R x y v → m'.pixel (wrapCol x) (wrapRow y) =
    compose mode (m.pixel (wrapCol x) (wrapRow y)) v
  miss : ∀ c r, c < Config.width → r < Config.height →
    (∀ x y v, R x y v → ¬(wrapCol x = c ∧ wrapRow y = r)) → m'.pixel c r = m.pixel c r
  bytes : ∀ a, (∀ x y v, R x y v → pixelTarget x y ≠ a) → m'.read a = m.read a

/-- The header bytes of a legal command, read from the formats of R64 and the CTL subfields of R62
field by field (and not from the masks of R66): a reserved field or bit is 0, and FILL is at most
5. -/
def LegalHeader (op ctl a b c d : Byte) (len : Nat) : Prop :=
  (op.toNat = 1 ∧ ctl = 0 ∧ a = 0 ∧ b = 0 ∧ c = 0 ∧ d = 0 ∧ len = 0) ∨
  (op.toNat = 2 ∧ ctl.toNat < 4 ∧ d = 0 ∧ len = 0) ∨
  (op.toNat = 3 ∧ ctl = 0 ∧ c = 0 ∧ d = 0 ∧ len = 0) ∨
  (op.toNat = 4 ∧ ctl = 0 ∧ d = 0 ∧ len = 0) ∨
  (op.toNat = 5 ∧ ctl = 0 ∧ c = 0 ∧ d = 0 ∧ len = 0) ∨
  (op.toNat = 6 ∧ ctl.toNat < 4 ∧ len = 0) ∨
  (op.toNat = 7 ∧ ctl.toNat < 32 ∧ ctl.toNat / 4 ≤ 5 ∧ len = 0) ∨
  (op.toNat = 8 ∧ ctl.toNat < 4 ∧ d = 0 ∧ len = 0) ∨
  (op.toNat = 9 ∧ ctl.toNat < 4 ∧ c = 0 ∧ d = 0) ∨
  (op.toNat = 10 ∧ ctl.toNat < 64) ∨
  (op.toNat = 11 ∧ ctl.toNat < 64 ∧ c = 0 ∧ d = 0) ∨
  (op.toNat = 12 ∧ ctl = 0 ∧ a = 0 ∧ b = 0 ∧ c = 0 ∧ d = 0 ∧ len = 0)

/-- The draw mode a command carries; none for the commands that have no MODE field (R62). -/
def drawMode? : Instr → Option DrawMode
  | .clear => none
  | .setpx _ _ _ mode => some mode
  | .getpx _ _ => none
  | .setb _ _ _ => none
  | .getb _ _ => none
  | .line _ _ _ _ mode => some mode
  | .frect _ _ _ _ _ mode => some mode
  | .pchar _ _ _ mode => some mode
  | .pstr _ _ _ mode => some mode
  | .blitp _ _ _ _ mode _ _ => some mode
  | .blits _ _ mode _ _ => some mode
  | .flush => none

/-- A code is in the printable range 0x20..0x7E (R140). -/
abbrev InFont (ch : Byte) : Prop := 0x20 ≤ ch.toNat ∧ ch.toNat ≤ 0x7E

/-- A command whose operands and payload meet every check its rule makes, so that it completes with
OK: the characters are printable (R141, R143), the payload is as long as the dimensions need (R157,
R158), and a self-describing bitmap has type 0 and reserved 0 (R158). -/
def Accepted : Instr → Prop
  | .clear => True
  | .setpx _ _ _ _ => True
  | .getpx _ _ => True
  | .setb _ _ _ => True
  | .getb _ _ => True
  | .line _ _ _ _ _ => True
  | .frect _ _ _ _ _ _ => True
  | .pchar ch _ _ _ => InFont ch
  | .pstr text _ _ _ => ∀ ch ∈ text, InFont ch
  | .blitp _ _ width height _ _ data => (width.toNat * height.toNat + 7) / 8 ≤ data.length
  | .blits _ _ _ _ data =>
      ∃ w h tl, data = 0x00 :: 0x00 :: w :: h :: tl ∧ (w.toNat + 7) / 8 * h.toNat ≤ tl.length
  | .flush => True

/-- A program run as a list of commands, with no packet stream (R28, R63). -/
def execAll : List Instr → State → Host.Outcome State Fault Refusal
  | [], s => .next s
  | i :: is, s =>
    match exec i s with
    | .next t => execAll is t
    | .fault e => .fault e
    | .refused e => .refused e

/-- The bytes of a program: its packets with nothing between them (R60). -/
def programBytes (is : List Instr) : List Byte := is.flatMap encode

/-- The record a model keeps of the codes written in the first `n` steps (R186). -/
def codes : Nat → State → List Byte
  | 0, _ => []
  | n + 1, s =>
    match step s with
    | .next t => t.status :: codes n t
    | .fault _ => []
    | .refused _ => []

/-- A safe run: no command of the first `n` reported an error (R186). -/
def CleanRun (n : Nat) (s : State) : Prop := ∀ c ∈ codes n s, c = 0x00

end Sys2Proof.Machine
end

