-- ==== Sys2Proof/Certificates/Slice0/Obligations.lean ====
section
/-! DEFINITION. The statements about the render unit. Each docstring names the rule of spec/ it comes
from. -/

open Sys2Proof Sys2Proof.Machine

/-! ## Packets -/

/-- R60 to R73: every well-formed command decodes from its own packet, whatever follows it. -/
def Obligations.DecodeOfEncode : Prop :=
  ∀ (i : Instr) (rest : List Byte), WellFormed i = true →
    decode (encode i ++ rest) = .command i rest

/-- R64, R70: reserved bits are never ignored, so a command has one packet: whatever decodes to `i`
is `i`'s encoding, and `i` is well formed. -/
def Obligations.EncodeOfDecode : Prop :=
  ∀ (bs : List Byte) (i : Instr) (rest : List Byte), decode bs = .command i rest →
    WellFormed i = true ∧ bs = encode i ++ rest

/-- R74's worked encodings and one packet of each other command, written out byte by byte. -/
def Obligations.WrittenOutPacketsDecode : Prop :=
  decode [0x02, 0x02, 0x05, 0x0A, 0x01, 0x00, 0x00, 0x00] = .command (.setpx 5 10 1 .xor) [] ∧
  decode [0x07, 0x0C, 0x00, 0x00, 0x53, 0x30, 0x00, 0x00] =
    .command (.frect 0 0 83 48 .checkerboard .set) [] ∧
  decode [0x08, 0x01, 0x52, 0x2C, 0x41, 0x00, 0x00, 0x00] = .command (.pchar 0x41 82 44 .or) [] ∧
  decode [0x09, 0x00, 0x00, 0x08, 0x00, 0x00, 0x00, 0x02, 0x48, 0x69] =
    .command (.pstr [0x48, 0x69] 0 8 .set) [] ∧
  decode [0x0B, 0x00, 0x00, 0x00, 0x00, 0x00, 0x00, 0x05, 0x00, 0x00, 0x08, 0x01, 0xB0] =
    .command (.blits 0 0 .set ⟨.r0, false, false⟩ [0x00, 0x00, 0x08, 0x01, 0xB0]) [] ∧
  decode [0x0A, 0x36, 0x0A, 0x14, 0x03, 0x02, 0x00, 0x01, 0xA8] =
    .command (.blitp 10 20 3 2 .xor ⟨.r90, true, true⟩ [0xA8]) [] ∧
  decode [0x01, 0x00, 0x00, 0x00, 0x00, 0x00, 0x00, 0x00, 0x0C] = .command .clear [0x0C] ∧
  decode [0x03, 0x00, 0x05, 0x0B, 0x00, 0x00, 0x00, 0x00] = .command (.getpx 5 11) [] ∧
  decode [0x04, 0x00, 0x53, 0x05, 0x80, 0x00, 0x00, 0x00] = .command (.setb 83 5 0x80) [] ∧
  decode [0x05, 0x00, 0xA7, 0x0B, 0x00, 0x00, 0x00, 0x00] = .command (.getb 167 11) [] ∧
  decode [0x06, 0x02, 0x00, 0x00, 0xC8, 0x07, 0x00, 0x00] = .command (.line 0 0 200 7 .xor) [] ∧
  decode [0x0C, 0x00, 0x00, 0x00, 0x00, 0x00, 0x00, 0x00] = .command .flush []

/-- R63: the unit takes eight header bytes, then LEN payload bytes, executes (or R70), and goes on
with the byte after them, whatever the header; with fewer bytes there is no step; after reset the
first byte the host sends is the first of a header. The names of the two stops, incompletePacket and
runEnded, are the model's way of saying that there is no step (R13, R63; assumption 4); that a reset
drops the bytes sent and not executed is read from R63 and R200 (assumption 13). -/
def Obligations.PacketFraming : Prop :=
  (∀ (s : State) (h0 h1 h2 h3 h4 h5 h6 h7 : Byte) (tl : List Byte),
    s.input = h0 :: h1 :: h2 :: h3 :: h4 :: h5 :: h6 :: h7 :: tl →
    256 * h6.toNat + h7.toNat ≤ tl.length →
    ∃ t, step s = .next t ∧ t.input = tl.drop (256 * h6.toNat + h7.toNat) ∧
      ((∃ i, decode s.input = .command i t.input ∧
          step s = exec i { s with input := t.input }) ∨
        (∃ why, decode s.input = .illegal why t.input ∧
          step s = .next { s with input := t.input, status := 0x01 }))) ∧
  (∀ (s : State) (h0 h1 h2 h3 h4 h5 h6 h7 : Byte) (tl : List Byte),
    s.input = h0 :: h1 :: h2 :: h3 :: h4 :: h5 :: h6 :: h7 :: tl →
    tl.length < 256 * h6.toNat + h7.toNat → step s = .fault .incompletePacket) ∧
  (∀ s : State, 0 < s.input.length → s.input.length < 8 → step s = .fault .incompletePacket) ∧
  (∀ s : State, s.input = [] → step s = .fault .runEnded) ∧
  (∀ (s : State) (bytes : List Byte), (s.hostReset.hostSend bytes).input = bytes)

/-- R63: a step runs the decoded instruction, with the packet's bytes consumed first. -/
def Obligations.StepRunsDecodedInstruction : Prop :=
  ∀ (s : State) (i : Instr) (rest : List Byte), decode s.input = .command i rest →
    step s = exec i { s with input := rest }

/-- R70: the headers that are ILLEGAL, read from the formats of R64 field by field, and what an
illegal header does. -/
def Obligations.IllegalHeaders : Prop :=
  ∀ (s : State) (h0 h1 h2 h3 h4 h5 h6 h7 : Byte) (tl : List Byte),
    s.input = h0 :: h1 :: h2 :: h3 :: h4 :: h5 :: h6 :: h7 :: tl →
    256 * h6.toNat + h7.toNat ≤ tl.length →
    (LegalHeader h0 h1 h2 h3 h4 h5 (256 * h6.toNat + h7.toNat) →
      ∃ i, decode s.input = .command i (tl.drop (256 * h6.toNat + h7.toNat)) ∧
        i.payload = if h0.toNat = 9 ∨ h0.toNat = 10 ∨ h0.toNat = 11
          then tl.take (256 * h6.toNat + h7.toNat) else []) ∧
    (¬LegalHeader h0 h1 h2 h3 h4 h5 (256 * h6.toNat + h7.toNat) →
      step s = .next { s with input := tl.drop (256 * h6.toNat + h7.toNat), status := 0x01 })

/-- R28, R49 a, R63: a stream that is a program's packets one after the other runs the program's
commands in order, one a step, and ends when the stream does. The stop at the end, runEnded, is the
model's way of saying that the run has ended (R13; assumption 4). -/
def Obligations.ProgramRunsInOrder : Prop :=
  ∀ (is : List Instr) (s : State), (∀ i ∈ is, WellFormed i = true) → s.input = programBytes is →
    ∃ t : State, Host.Core.run Sys2Proof.core is.length s = .next t ∧
      execAll is { s with input := [] } = .next t ∧ t.input = [] ∧ step t = .fault .runEnded

/-- R186: the record of the codes written during a program's run is all OK exactly when every
command of the program passes its own checks. -/
def Obligations.CleanRunsAreAcceptedPrograms : Prop :=
  ∀ (is : List Instr) (s : State), (∀ i ∈ is, WellFormed i = true) → s.input = programBytes is →
    (codes is.length s).length = is.length ∧
      (CleanRun is.length s ↔ ∀ i ∈ is, Accepted i)

/-! ## The whole machine -/

/-- R20, R24, R31: reset meets the invariant. -/
def Obligations.ResetMeetsInvariant : Prop := MachineInv State.reset

/-- R31, R200: what a reset leaves, whenever it is applied; FB is 504 arbitrary bytes, which the
model names by a free value (assumption 1). That the bytes sent and not executed are gone is read
from R63 and R200 (assumption 13). -/
def Obligations.HostResetLeaves : Prop :=
  ∀ s : State, MachineInv s.hostReset ∧ s.hostReset.status = 0x00 ∧ s.hostReset.result = 0x00 ∧
    s.hostReset.out = [] ∧ s.hostReset.input = [] ∧
    ∀ i, i < 504 → s.hostReset.fb.read i = Config.fbAfterReset (s.resets + 1) i

/-- R20, R24: every step keeps FB the 504-byte array and STATUS one of the codes 0 to 4. -/
def Obligations.StepKeepsInvariant : Prop :=
  ∀ s t : State, MachineInv s → step s = .next t → MachineInv t

/-- R20: the canonical form is canonical: two framebuffers that read alike are the same data. -/
def Obligations.FramebufferIsCanonical : Prop :=
  ∀ m m' : Memory, m.wf = true → m'.wf = true → (∀ a, a < 504 → m.read a = m'.read a) → m = m'

/-- R180, R182, R184: every command completes with OK or ends with an error code and then changes
STATUS only. -/
def Obligations.ErrorsAreAllOrNothing : Prop :=
  ∀ (i : Instr) (s : State), ∃ t, exec i s = .next t ∧
    ((t.status = 0x00 ∧ Accepted i) ∨
      (¬Accepted i ∧ ∃ code : Byte, code ∈ [0x02, 0x03, 0x04] ∧ t = { s with status := code }))

/-- R158, R180, R183: the code each command reports, from its operands and payload alone. -/
def Obligations.OutcomeCodes : Prop :=
  (∀ i s, (∀ ch col row mode, i ≠ .pchar ch col row mode) →
    (∀ text col row mode, i ≠ .pstr text col row mode) →
    (∀ col row w h mode xf data, i ≠ .blitp col row w h mode xf data) →
    (∀ col row mode xf data, i ≠ .blits col row mode xf data) →
    ∃ t, exec i s = .next t ∧ t.status = 0x00) ∧
  (∀ (ch col row : Byte) mode s, ∃ t, exec (.pchar ch col row mode) s = .next t ∧
    t.status = if InFont ch then 0x00 else 0x02) ∧
  (∀ (text : List Byte) (col row : Byte) mode s, ∃ t, exec (.pstr text col row mode) s = .next t ∧
    ((∀ ch ∈ text, InFont ch) → t.status = 0x00) ∧
    ((∃ ch ∈ text, ¬InFont ch) → t.status = 0x02)) ∧
  (∀ (col row w h : Byte) mode xf (data : List Byte) s,
    ∃ t, exec (.blitp col row w h mode xf data) s = .next t ∧
      t.status = if data.length < (w.toNat * h.toNat + 7) / 8 then 0x04 else 0x00) ∧
  (∀ (col row : Byte) mode xf (data : List Byte) s, data.length < 4 →
    ∃ t, exec (.blits col row mode xf data) s = .next t ∧ t.status = 0x04) ∧
  (∀ (col row : Byte) mode xf (ty rv w h : Byte) (tl : List Byte) s,
    ∃ t, exec (.blits col row mode xf (ty :: rv :: w :: h :: tl)) s = .next t ∧
      t.status =
        if ty ≠ 0 ∨ rv ≠ 0 then 0x03
        else if tl.length < (w.toNat + 7) / 8 * h.toNat then 0x04 else 0x00)

/-- R24: after any step STATUS holds a code 0 to 4, its bits 7:3 are 0, and the host reads it as it
stands. -/
def Obligations.StatusHoldsACode : Prop :=
  ∀ s t : State, step s = .next t →
    t.status.toNat ≤ 4 ∧ t.hostStatus = t.status ∧ (t.status &&& 0xF8#8) = 0

/-- R25: RESULT is written by GETPX and GETB only, with that command's return value; an illegal
header leaves it too. -/
def Obligations.ResultRegister : Prop :=
  (∀ (col row : Byte) s, ∃ t, exec (.getpx col row) s = .next t ∧ t.status = 0x00 ∧
    t.result = getPixel s.fb col.toNat row.toNat) ∧
  (∀ (col bank : Byte) s, ∃ t, exec (.getb col bank) s = .next t ∧ t.status = 0x00 ∧
    t.result = s.fb.read (bankTarget col.toNat bank.toNat)) ∧
  (∀ i s t, (∀ col row, i ≠ .getpx col row) → (∀ col bank, i ≠ .getb col bank) →
    exec i s = .next t → t.result = s.result) ∧
  (∀ s t why rest, decode s.input = .illegal why rest → step s = .next t → t.result = s.result) ∧
  (∀ s : State, s.hostResult = s.result)

/-- R26, R50: only FLUSH changes OUT, and it only appends; no command touches the stream or the
reset count. -/
def Obligations.OutputFrame : Prop :=
  ∀ i s t, exec i s = .next t →
    t.input = s.input ∧ t.resets = s.resets ∧ (i ≠ .flush → t.out = s.out) ∧
      ∃ gained, t.out = s.out ++ gained

/-- R46: the commands that leave FB alone. -/
def Obligations.QueriesAndFlushKeepFramebuffer : Prop :=
  (∀ (col row : Byte) s, ∃ t, exec (.getpx col row) s = .next t ∧ t.fb = s.fb) ∧
  (∀ (col bank : Byte) s, ∃ t, exec (.getb col bank) s = .next t ∧ t.fb = s.fb) ∧
  (∀ s, ∃ t, exec .flush s = .next t ∧ t.fb = s.fb)

/-- R29, R177: neither STATUS nor RESULT is an input to any command: two states that differ in these
registers only are taken to states that differ in RESULT only, and a query gives both the same. -/
def Obligations.StatusAndResultAreNoInputs : Prop :=
  ∀ (i : Instr) (s : State) (st r : Byte),
    ∃ t u, exec i s = .next t ∧ exec i { s with status := st, result := r } = .next u ∧
      u = { t with result := u.result } ∧
      (((∃ col row, i = .getpx col row) ∨ (∃ col bank, i = .getb col bank)) → u = t)

/-- R105, R202, R203: once CLEAR has run, nothing depends on what FB held before it: two units that
differ in FB, STATUS or nothing else behave alike for ever. -/
def Obligations.ClearForgetsFramebuffer : Prop :=
  ∀ (s : State) (m : Memory) (st : Byte) (rest : List Byte) (n : Nat),
    decode s.input = .command .clear rest →
    Host.Core.run Sys2Proof.core (n + 1) s =
      Host.Core.run Sys2Proof.core (n + 1) { s with fb := m, status := st }

/-- R46: a command in xor mode, executed twice, restores every byte of FB. -/
def Obligations.XorTwiceRestores : Prop :=
  ∀ (i : Instr) (s : State), drawMode? i = some .xor →
    ∃ t u, exec i s = .next t ∧ exec i t = .next u ∧ ∀ a, u.fb.read a = s.fb.read a

/-- R46: every other command is idempotent on FB. This is the derived part of R46. -/
def Obligations.OtherModesAreIdempotent : Prop :=
  ∀ (i : Instr) (s : State), drawMode? i ≠ some .xor →
    ∃ t u, exec i s = .next t ∧ exec i t = .next u ∧ ∀ a, u.fb.read a = t.fb.read a

/-- R43: coordinates are reduced modulo 84 and 48 (6 for a bank), so operands with the same residues
are the same command. -/
def Obligations.CoordinatesWrap : Prop :=
  ∀ (col col' row row' : Byte) (s : State), col.toNat % 84 = col'.toNat % 84 →
    (row.toNat % 48 = row'.toNat % 48 →
      (∀ value mode, exec (.setpx col row value mode) s = exec (.setpx col' row' value mode) s) ∧
      exec (.getpx col row) s = exec (.getpx col' row') s ∧
      (∀ ch mode, exec (.pchar ch col row mode) s = exec (.pchar ch col' row' mode) s) ∧
      (∀ text mode, exec (.pstr text col row mode) s = exec (.pstr text col' row' mode) s) ∧
      (∀ w h mode xf data, exec (.blitp col row w h mode xf data) s =
        exec (.blitp col' row' w h mode xf data) s) ∧
      (∀ mode xf data, exec (.blits col row mode xf data) s =
        exec (.blits col' row' mode xf data) s)) ∧
    (row.toNat % 6 = row'.toNat % 6 →
      (∀ byte, exec (.setb col row byte) s = exec (.setb col' row' byte) s) ∧
      exec (.getb col row) s = exec (.getb col' row') s)

/-! ## Pixels -/

/-- R41: the pixel addresser is a bijection from the 4032 pixels to the 4032 bits of FB. The formula
is R41's own; that it is a bijection is marked as derived there. -/
def Obligations.PixelAddressIsBijection : Prop :=
  (∀ c r, c < 84 → r < 48 → pixelIndex c r < 504 ∧ pixelBit r < 8 ∧
    pixelIndex c r % 84 = c ∧ 8 * (pixelIndex c r / 84) + pixelBit r = r) ∧
  (∀ idx b, idx < 504 → b < 8 → idx % 84 < 84 ∧ 8 * (idx / 84) + b < 48 ∧
    pixelIndex (idx % 84) (8 * (idx / 84) + b) = idx ∧ pixelBit (8 * (idx / 84) + b) = b) ∧
  (∀ c r, c < 84 → r < 48 → pixelIndex c r = c + r / 8 * 84 ∧ pixelBit r = r % 8)

/-- R102: the compositor's table. -/
def Obligations.CompositorTable : Prop :=
  ∀ old : Bool,
    compose .set old true = true ∧ compose .set old false = false ∧
    compose .or old true = true ∧ compose .or old false = old ∧
    compose .xor old true = (!old) ∧ compose .xor old false = old ∧
    compose .clear old true = false ∧ compose .clear old false = old

/-- R103: SetPixel writes one byte; the addressed bit becomes Compose of the old bit, the seven
others keep theirs, and every other byte is untouched. -/
def Obligations.SetPixelWritesOneBit : Prop :=
  ∀ (mode : DrawMode) (m : Memory) (col row value : Nat),
    let idx := col % 84 + row % 48 / 8 * 84
    let b := row % 48 % 8
    (∀ j, j < 8 → ((setPixel mode m col row value).read idx).getLsbD j =
      if j = b then compose mode ((m.read idx).getLsbD j) (decide (value ≠ 0))
      else (m.read idx).getLsbD j) ∧
    (∀ a, a ≠ idx → (setPixel mode m col row value).read a = m.read a)

/-- R106: SETPX completes and composes its one pixel; every other pixel and byte, RESULT and OUT are
unchanged. -/
def Obligations.SetpxResult : Prop :=
  ∀ (col row value : Byte) (mode : DrawMode) (s : State),
    ∃ t, exec (.setpx col row value mode) s = .next t ∧ OkDrawing s t ∧
      DrawnCells mode (fun x y v => x = col.toNat ∧ y = row.toNat ∧ v = decide (value ≠ 0))
        s.fb t.fb

/-- R107, a derived rule of the spec: the source's laws of a pixel write. -/
def Obligations.SetpxLaws : Prop :=
  ∀ (col row : Byte) (s : State),
    (∃ t u, exec (.setpx col row 1 .set) s = .next t ∧ exec (.getpx col row) t = .next u ∧
      u.result ≠ 0) ∧
    (∃ t u, exec (.setpx col row 0 .set) s = .next t ∧ exec (.getpx col row) t = .next u ∧
      u.result = 0) ∧
    (∃ t u, exec (.setpx col row 1 .xor) s = .next t ∧ exec (.setpx col row 1 .xor) t = .next u ∧
      ∀ a, u.fb.read a = s.fb.read a) ∧
    (∃ t, exec (.setpx col row 0 .or) s = .next t ∧ ∀ a, t.fb.read a = s.fb.read a) ∧
    (∀ value mode, ∃ t, exec (.setpx col row value mode) s = .next t ∧
      ∀ c r, c < 84 → r < 48 → ¬(c = col.toNat % 84 ∧ r = row.toNat % 48) →
        t.fb.pixel c r = s.fb.pixel c r)

/-- R104, R108: GETPX completes; RESULT is 0 for a clear pixel and `1 << (row mod 8)` for a set one.
-/
def Obligations.GetpxResult : Prop :=
  ∀ (col row : Byte) (s : State), ∃ t, exec (.getpx col row) s = .next t ∧
    t = { s with status := 0x00, result := t.result } ∧
    t.result = if s.fb.pixel (col.toNat % 84) (row.toNat % 48)
      then 1#8 <<< (row.toNat % 48 % 8) else 0

/-- R109: SETB completes and replaces its one byte. -/
def Obligations.SetbResult : Prop :=
  ∀ (col bank byte : Byte) (s : State), ∃ t, exec (.setb col bank byte) s = .next t ∧
    OkDrawing s t ∧ t.fb.read (col.toNat % 84 + bank.toNat % 6 * 84) = byte ∧
    ∀ a, a ≠ col.toNat % 84 + bank.toNat % 6 * 84 → t.fb.read a = s.fb.read a

/-- R110: GETB completes; RESULT is the byte, and nothing else but STATUS changes. -/
def Obligations.GetbResult : Prop :=
  ∀ (col bank : Byte) (s : State), exec (.getb col bank) s = .next
    { s with status := 0x00, result := s.fb.read (col.toNat % 84 + bank.toNat % 6 * 84) }

/-- R105: CLEAR completes with every byte 0x00, whatever FB held. -/
def Obligations.ClearResult : Prop :=
  ∀ s : State, ∃ t, exec .clear s = .next t ∧ OkDrawing s t ∧ t.fb.wf = true ∧
    ∀ i, i < 504 → t.fb.read i = 0x00

/-- R111, a derived rule of the spec: the pixel and byte views agree: a pixel query is the byte
query masked; SETB has the effect on FB of eight SETPX commands on the rows of its byte, in any
order; and eight SetPixel calls in the other modes combine the whole byte as the mode says. -/
def Obligations.ByteIsEightPixels : Prop :=
  (∀ (col row : Byte) (s : State), col.toNat < 84 → row.toNat < 48 →
    ∃ t u, exec (.getpx col row) s = .next t ∧
      exec (.getb col (BitVec.ofNat 8 (row.toNat / 8))) s = .next u ∧
      t.result = u.result &&& (1#8 <<< (row.toNat % 8))) ∧
  (∀ (c k v : Byte) (order : List Nat) (s : State), c.toNat < 84 → k.toNat < 6 →
    order.Perm (List.range 8) →
    ∃ t u, exec (.setb c k v) s = .next t ∧
      execAll (order.map (fun b =>
        .setpx c (BitVec.ofNat 8 (8 * k.toNat + b)) (BitVec.ofNat 8 (v.getLsbD b).toNat) .set)) s =
          .next u ∧
      ∀ a, u.fb.read a = t.fb.read a) ∧
  (∀ (mode : DrawMode) (m : Memory) (c k : Nat) (v : Byte) (order : List Nat),
    c < 84 → k < 6 → order.Perm (List.range 8) → ∀ a,
    (plotAll mode m (order.map (fun b => ⟨c, 8 * k + b, (v.getLsbD b).toNat⟩))).read a =
      if a = c + k * 84 then
        (match mode with
          | .set => v
          | .or => m.read a ||| v
          | .xor => m.read a ^^^ v
          | .clear => m.read a &&& ~~~v)
      else m.read a)

/-! ## Lines -/

/-- R122: LINE completes; FB is what the SetPixel calls at the points of LinePoints make of it, each
with value 1, in order. The machine takes LINE_STEP_ON_ZERO = false, the spec's own choice (D7,
assumption 5). -/
def Obligations.LineResult : Prop :=
  ∀ (col0 row0 col1 row1 : Byte) (mode : DrawMode) (s : State),
    ∃ t, exec (.line col0 row0 col1 row1 mode) s = .next t ∧ OkDrawing s t ∧
      Drawn mode
        ((linePoints lineStepOnZero col0.toNat row0.toNat col1.toNat row1.toNat).map
          (fun pt => ⟨pt.1, pt.2, 1⟩))
        s.fb t.fb

/-- R123, a derived rule of the spec: the properties of LinePoints, for both values of
LINE_STEP_ON_ZERO. -/
def Obligations.LinePointsShape : Prop :=
  ∀ (z : Bool) (c0 r0 c1 r1 : Nat), c0 ≤ 255 → r0 ≤ 255 → c1 ≤ 255 → r1 ≤ 255 →
    let pts := linePoints z c0 r0 c1 r1
    let dx := absDiff c1 c0
    let dy := absDiff r1 r0
    let sx : Int := if c1 ≥ c0 then 1 else -1
    let sy : Int := if r1 ≥ r0 then 1 else -1
    pts.length = max dx dy + 1 ∧
    pts.head? = some (c0, r0) ∧ pts.getLast? = some (c1, r1) ∧
    (∀ n p q, pts[n]? = some p → pts[n + 1]? = some q →
      if dy < dx then (q.1 : Int) = p.1 + sx ∧ ((q.2 : Int) = p.2 ∨ (q.2 : Int) = p.2 + sy)
      else (q.2 : Int) = p.2 + sy ∧ ((q.1 : Int) = p.1 ∨ (q.1 : Int) = p.1 + sx)) ∧
    (∀ p ∈ pts, min c0 c1 ≤ p.1 ∧ p.1 ≤ max c0 c1 ∧ min r0 r1 ≤ p.2 ∧ p.2 ≤ max r0 r1 ∧
      p.1 ≤ 255 ∧ p.2 ≤ 255) ∧
    (dy = 0 → ∀ p ∈ pts, p.2 = r0) ∧ (dx = 0 → ∀ p ∈ pts, p.1 = c0) ∧
    (dx = dy →
      (∀ i, i ≤ dx → ∃ p, pts[i]? = some p ∧ (p.1 : Int) = c0 + i * sx ∧
        (p.2 : Int) = r0 + i * sy) ∧
      pts = (lineCursors z dx dy sx sy dx ⟨c0, r0, 2 * dy - dx⟩).map
        (fun k => (k.p.toNat, k.q.toNat))) ∧
    (∀ e ∈ lineTrace z c0 r0 c1 r1, -509 ≤ e.2.2 ∧ e.2.2 ≤ 507)

/-- R121: after `i` iterations the minor axis has stepped as often as the rounded exact slope says:
`i*minor/major` rounded to the nearest integer, halves down by default and up with
LINE_STEP_ON_ZERO. The recurrence is the spec's own choice (D7). -/
def Obligations.LineFollowsRoundedSlope : Prop :=
  ∀ (z : Bool) (c0 r0 c1 r1 i : Nat),
    let pts := linePoints z c0 r0 c1 r1
    let dx := absDiff c1 c0
    let dy := absDiff r1 r0
    let sx : Int := if c1 ≥ c0 then 1 else -1
    let sy : Int := if r1 ≥ r0 then 1 else -1
    let down : Nat := if z then 0 else 1
    (dy < dx → i ≤ dx → ∃ p, pts[i]? = some p ∧ (p.1 : Int) = c0 + sx * i ∧
      (p.2 : Int) = r0 + sy * ((2 * i * dy + dx - down) / (2 * dx) : Nat)) ∧
    (dx ≤ dy → 0 < dy → i ≤ dy → ∃ p, pts[i]? = some p ∧ (p.2 : Int) = r0 + sy * i ∧
      (p.1 : Int) = c0 + sx * ((2 * i * dx + dy - down) / (2 * dy) : Nat))

/-- R124 b: the FB that LINE leaves does not depend on the order of its plots. This part of R124 is
marked as derived there. -/
def Obligations.LineOrderDoesNotMatter : Prop :=
  ∀ (mode : DrawMode) (m : Memory) (pts pts' : List (Nat × Nat)) (a : Nat), pts.Perm pts' →
    (plotAll mode m (pts.map (fun pt => ⟨pt.1, pt.2, 1⟩))).read a =
      (plotAll mode m (pts'.map (fun pt => ⟨pt.1, pt.2, 1⟩))).read a

/-! ## Rectangles -/

/-- R132: FRECT completes; FB is what the SetPixel calls make of it, columns `col0..col1` outer and
rows `row0..row1-1` inner, both ascending, the value being the pattern bit of the cell. The loop
order (D10) and five of the patterns (D9, assumption 6) are the spec's own choices. -/
def Obligations.FrectResult : Prop :=
  ∀ (col0 row0 col1 row1 : Byte) (fill : FillMode) (mode : DrawMode) (s : State),
    ∃ t, exec (.frect col0 row0 col1 row1 fill mode) s = .next t ∧ OkDrawing s t ∧
      Drawn mode
        ((List.range' col0.toNat (col1.toNat + 1 - col0.toNat)).flatMap (fun c =>
          (List.range' row0.toNat (row1.toNat - row0.toNat)).map (fun r =>
            ⟨c, r, (fillPred fill c r).toNat⟩)))
        s.fb t.fb

/-- R132, for any parameters: a rectangle no wider than 84 columns and no taller than 48 rows
composes each of its cells once and touches nothing else; the bounds are `col0..col1` with both ends
and `row0..row1-1`. -/
def Obligations.FrectWithoutOverlap : Prop :=
  ∀ (P : Config.Params) (col0 row0 col1 row1 : Byte) (fill : FillMode) (mode : DrawMode) (s : State),
    col1.toNat < col0.toNat + 84 → row1.toNat ≤ row0.toNat + 48 →
    ∃ t, frectWith P col0 row0 col1 row1 fill mode s = .next t ∧ OkDrawing s t ∧
      DrawnCells mode
        (fun x y v => (col0.toNat ≤ x ∧ x ≤ col1.toNat) ∧ (row0.toNat ≤ y ∧ y < row1.toNat) ∧
          v = P.fillPred fill x y)
        s.fb t.fb

/-- R130: the table of the default fill predicates; all but the checkerboard are the spec's own
choice (D9, assumption 6). -/
def Obligations.FillPatternTable : Prop :=
  ∀ c r : Nat,
    fillPred .solid c r = true ∧ fillPred .none c r = false ∧
    (fillPred .hatch c r = true ↔ (c + r) % 3 = 0) ∧
    ((fillPred .checkerboard c r).toNat = (c + r) % 2) ∧
    ((fillPred .horizontalStripes c r).toNat = r % 2) ∧
    ((fillPred .verticalStripes c r).toNat = c % 2)

/-- R131, a derived rule of the spec: the default fill predicates (D9, assumption 6) do not see
wrapping. -/
def Obligations.FillPatternsSurviveWrapping : Prop :=
  ∀ (fill : FillMode) (c r : Nat), fillPred fill c r = fillPred fill (c % 84) (r % 48)

/-- R133, for any parameters the source allows: the panel-wide checkerboard. The source states the
property; R133 marks that it follows from R130 and R132 as derived. -/
def Obligations.CheckerboardFillsPanel : Prop :=
  (∀ (P : Config.Params) (s : State), P.Allowed →
    ∃ t, frectWith P 0 0 83 48 .checkerboard .set s = .next t ∧ OkDrawing s t ∧
      (∀ col row : Byte, col.toNat < 84 → row.toNat < 48 →
        ∃ u, exec (.getpx col row) t = .next u ∧
          (u.result ≠ 0 ↔ (col.toNat + row.toNat) % 2 = 1)) ∧
      (∀ i, i < 504 → t.fb.read i = if i % 84 % 2 = 0 then 0xAA else 0x55)) ∧
  params.Allowed ∧
  (∀ s, exec (.frect 0 0 83 48 .checkerboard .set) s =
    frectWith params 0 0 83 48 .checkerboard .set s)

/-- R134, a derived rule of the spec: under the default predicates (D9, assumption 6) the visiting
order of FRECT cannot be observed. -/
def Obligations.FrectOrderDoesNotMatter : Prop :=
  ∀ (fill : FillMode) (mode : DrawMode) (m : Memory) (cells cells' : List (Nat × Nat)) (a : Nat),
    cells.Perm cells' →
    (plotAll mode m (cells.map (fun p => ⟨p.1, p.2, (fillPred fill p.1 p.2).toNat⟩))).read a =
      (plotAll mode m (cells'.map (fun p => ⟨p.1, p.2, (fillPred fill p.1 p.2).toNat⟩))).read a

/-! ## Text -/

/-- R140, R141: PCHAR of a printable code completes; bit `b` of column `i` of the glyph goes to
pixel `(col + i, row + b)`, and nothing else changes. -/
def Obligations.PcharResult : Prop :=
  ∀ (ch col row : Byte) (mode : DrawMode) (s : State), InFont ch →
    ∃ t, exec (.pchar ch col row mode) s = .next t ∧ OkDrawing s t ∧
      DrawnCells mode
        (fun x y v => ∃ i b, i < 5 ∧ b < 8 ∧ x = col.toNat + i ∧ y = row.toNat + b ∧
          v = (Config.font (ch.toNat - 0x20) i).getLsbD b)
        s.fb t.fb

/-- R142: character `k` of `n` is drawn exactly when its six-column cell ends inside column 83; from
column 0 a row holds 14. -/
def Obligations.StringLayout : Prop :=
  (∀ x0 n k, x0 < 84 → (k < nprint x0 n ↔ k < n ∧ x0 + 6 * k + 6 ≤ 84)) ∧
  (∀ n, 14 ≤ n → nprint 0 n = 14)

/-- R142, R143: PSTR of printable characters completes; the characters whose cells fit are drawn six
columns apart from the wrapped start column, and nothing else changes. -/
def Obligations.PstrResult : Prop :=
  ∀ (text : List Byte) (col row : Byte) (mode : DrawMode) (s : State), (∀ ch ∈ text, InFont ch) →
    ∃ t, exec (.pstr text col row mode) s = .next t ∧ OkDrawing s t ∧
      DrawnCells mode
        (fun x y v => ∃ k ch i b, text[k]? = some ch ∧ col.toNat % 84 + 6 * k + 6 ≤ 84 ∧
          i < 5 ∧ b < 8 ∧ x = col.toNat % 84 + 6 * k + i ∧ y = row.toNat + b ∧
          v = (Config.font (ch.toNat - 0x20) i).getLsbD b)
        s.fb t.fb

/-- R144: neither PCHAR nor PSTR writes the sixth column of a text cell. -/
def Obligations.SpacingColumnIsKept : Prop :=
  (∀ (ch col row : Byte) (mode : DrawMode) (s : State) (r : Nat), r < 48 →
    ∃ t, exec (.pchar ch col row mode) s = .next t ∧
      t.fb.pixel ((col.toNat + 5) % 84) r = s.fb.pixel ((col.toNat + 5) % 84) r) ∧
  (∀ (text : List Byte) (col row : Byte) (mode : DrawMode) (s : State) (k r : Nat),
    col.toNat % 84 + 6 * k + 5 < 84 → r < 48 →
    ∃ t, exec (.pstr text col row mode) s = .next t ∧
      t.fb.pixel (col.toNat % 84 + 6 * k + 5) r = s.fb.pixel (col.toNat % 84 + 6 * k + 5) r)

/-- R145, for any font: "Hello" printed at the origin of a cleared framebuffer reads back as its
five glyphs. The form in terms of GETB is marked as derived in R145 (from R140, R143 and R111). -/
def Obligations.HelloRoundTrip : Prop :=
  (∀ s, exec (.pstr [0x48, 0x65, 0x6C, 0x6C, 0x6F] 0 0 .set) s =
    pstrWith params [0x48, 0x65, 0x6C, 0x6C, 0x6F] 0 0 .set s) ∧
  ∀ (P : Config.Params) (s : State),
    ∃ t u, exec .clear s = .next t ∧
      pstrWith P [0x48, 0x65, 0x6C, 0x6C, 0x6F] 0 0 .set t = .next u ∧
      ∀ (k i ch : Nat), ([0x48, 0x65, 0x6C, 0x6C, 0x6F] : List Nat)[k]? = some ch → i < 5 →
        ∃ v, exec (.getb (BitVec.ofNat 8 (6 * k + i)) 0) u = .next v ∧
          v.result = P.font (ch - 0x20) i

/-- R146, a derived rule of the spec, for any font: a glyph drawn in set mode on a bank boundary is
five byte writes. -/
def Obligations.BankAlignedGlyph : Prop :=
  ∀ (P : Config.Params) (g col row : Nat) (m : Memory) (a : Nat), row % 48 % 8 = 0 →
    (plotAll .set m (glyphPlots P g col row)).read a =
      ((List.range 5).foldl
        (fun m i => m.write ((col + i) % 84 + row % 48 / 8 * 84) (P.font g i)) m).read a

/-! ## Bitmaps -/

/-- R150, R154, R157: BLITP of a long enough payload completes; FB is what the blit loop's SetPixel
calls make of it, source row-major. The transform other than XF = 0 is the spec's own choice (D14,
assumption 7). -/
def Obligations.BlitpResult : Prop :=
  ∀ (col row width height : Byte) (mode : DrawMode) (xf : Transform) (data : List Byte) (s : State),
    (width.toNat * height.toNat + 7) / 8 ≤ data.length →
    ∃ t, exec (.blitp col row width height mode xf data) s = .next t ∧ OkDrawing s t ∧
      Drawn mode
        ((List.range height.toNat).flatMap (fun y => (List.range width.toNat).map (fun x =>
          ⟨col.toNat + (xform xf.rot xf.mir width.toNat height.toNat x y).1,
            row.toNat + (xform xf.rot xf.mir width.toNat height.toNat x y).2,
            (srcBitPacked data width.toNat x y ^^ xf.inv).toNat⟩)))
        s.fb t.fb

/-- R151, R154, R160: BLITS of a supported, long enough bitmap completes; FB is what the blit loop's
SetPixel calls make of it, source row-major. The transform other than XF = 0 is the spec's own
choice (D14, assumption 7). -/
def Obligations.BlitsResult : Prop :=
  ∀ (col row : Byte) (mode : DrawMode) (xf : Transform) (w h : Byte) (tl : List Byte) (s : State),
    (w.toNat + 7) / 8 * h.toNat ≤ tl.length →
    ∃ t, exec (.blits col row mode xf (0x00 :: 0x00 :: w :: h :: tl)) s = .next t ∧
      OkDrawing s t ∧
      Drawn mode
        ((List.range h.toNat).flatMap (fun y => (List.range w.toNat).map (fun x =>
          ⟨col.toNat + (xform xf.rot xf.mir w.toNat h.toNat x y).1,
            row.toNat + (xform xf.rot xf.mir w.toNat h.toNat x y).2,
            (srcBitSelf (0x00 :: 0x00 :: w :: h :: tl) w.toNat x y ^^ xf.inv).toNat⟩)))
        s.fb t.fb

/-- R153, R155: a bitmap whose destination is at most 84 by 48 composes each destination pixel once
with its own source bit, complemented when INV is set, and touches nothing else. The transform is
the spec's own choice (D14, assumption 7). -/
def Obligations.BlitWithoutOverlap : Prop :=
  ∀ (mode : DrawMode) (m : Memory) (w h : Nat) (src : Nat → Nat → Bool) (col row : Nat)
    (xf : Transform), (xformSize xf.rot w h).1 ≤ 84 → (xformSize xf.rot w h).2 ≤ 48 →
    DrawnCells mode
      (fun x y v => ∃ sx sy, sx < w ∧ sy < h ∧
        x = col + (xform xf.rot xf.mir w h sx sy).1 ∧
        y = row + (xform xf.rot xf.mir w h sx sy).2 ∧ v = (src sx sy != xf.inv))
      m (plotAll mode m (blitPlots params w h src col row xf))

/-- R153: for each ROT and MIR the transform is a bijection of the source positions onto the
destination rectangle; ROT = 1 is a quarter turn clockwise, the others repeat it, and MIR comes
first. The transform is the spec's own choice (D14, assumption 7). -/
def Obligations.TransformIsBijection : Prop :=
  ∀ (rot : Rotation) (mir : Bool) (w h : Nat),
    (∀ x y, x < w → y < h → (xform rot mir w h x y).1 < (xformSize rot w h).1 ∧
      (xform rot mir w h x y).2 < (xformSize rot w h).2) ∧
    (∀ x y x' y', x < w → y < h → x' < w → y' < h →
      xform rot mir w h x y = xform rot mir w h x' y' → x = x' ∧ y = y') ∧
    (∀ xd yd, xd < (xformSize rot w h).1 → yd < (xformSize rot w h).2 →
      ∃ x y, x < w ∧ y < h ∧ xform rot mir w h x y = (xd, yd)) ∧
    (∀ x y, x < w → y < h →
      xform .r0 false w h x y = (x, y) ∧ xform .r90 false w h x y = (h - 1 - y, x) ∧
      xform .r180 false w h x y =
        xform .r90 false h w (xform .r90 false w h x y).1 (xform .r90 false w h x y).2 ∧
      xform .r270 false w h x y =
        xform .r90 false w h (xform .r180 false w h x y).1 (xform .r180 false w h x y).2 ∧
      xform rot true w h x y = xform rot false w h (w - 1 - x) y)

/-- R161: the worked transforms of the 3 by 2 image 0xA8, read from the SetPixel calls of the blit:
the offsets that receive a 1 without INV, the destination sizes, and what INV does to them. A
derived rule; the transform is the spec's own choice (D14, assumption 7). -/
def Obligations.WorkedTransforms : Prop :=
  let offsets := fun (rot : Rotation) (mir inv : Bool) (v : Nat) =>
    ((blitPlots params 3 2 (srcBitPacked [0xA8] 3) 0 0 ⟨rot, mir, inv⟩).filter
      (fun p => p.value == v)).map (fun p => (p.col, p.row))
  offsets .r0 false false 1 = [(0, 0), (2, 0), (1, 1)] ∧ xformSize .r0 3 2 = (3, 2) ∧
  offsets .r90 false false 1 = [(1, 0), (1, 2), (0, 1)] ∧ xformSize .r90 3 2 = (2, 3) ∧
  offsets .r180 false false 1 = [(2, 1), (0, 1), (1, 0)] ∧ xformSize .r180 3 2 = (3, 2) ∧
  offsets .r270 false false 1 = [(0, 2), (0, 0), (1, 1)] ∧ xformSize .r270 3 2 = (2, 3) ∧
  offsets .r0 true false 1 = [(2, 0), (0, 0), (1, 1)] ∧
  offsets .r90 true false 1 = [(1, 2), (1, 0), (0, 1)] ∧
  (∀ rm ∈ [(Rotation.r0, false), (.r90, false), (.r180, false), (.r270, false), (.r0, true),
      (.r90, true)],
    offsets rm.1 rm.2 true 0 = offsets rm.1 rm.2 false 1 ∧
    offsets rm.1 rm.2 true 1 = offsets rm.1 rm.2 false 0 ∧
    (offsets rm.1 rm.2 true 1).length = 3)

/-- R152, a derived rule of the spec: the source's walking mask reads the same bits as the closed
forms. -/
def Obligations.MaskWalkReadsTheBitmap : Prop :=
  ∀ (pay : List Byte) (w h x y : Nat), x < w → y < h →
    (maskWalk false pay w h)[y]?.bind (fun bits => bits[x]?) = some (srcBitPacked pay w x y) ∧
    (maskWalk true pay w h)[y]?.bind (fun bits => bits[x]?) = some (srcBitSelf pay w x y)

/-! ## Scan-out -/

/-- R170, R171: FLUSH completes; OUT gains CURSOR_RESET_SEQ as command elements, then exactly 504
data elements, the `j`-th being the byte of column `j mod 84` in bank `j div 84`; FB and RESULT are
unchanged. The count and the position of the data elements are marked as derived in R171 (from R170
and R42). -/
def Obligations.FlushResult : Prop :=
  ∀ s : State, ∃ t data, exec .flush s = .next t ∧
    t = { s with status := 0x00, out := t.out } ∧
    t.out = s.out ++ Config.cursorResetSeq.map (fun e => ⟨.cmd, e⟩) ++ data ∧
    data.length = 504 ∧
    ∀ j, j < 504 → data[j]? = some ⟨.data, s.fb.read (j % 84 + j / 84 * 84)⟩
end

