-- ==== Sys2Proof/Laws/Memory.lean ====
section
/-! SUPPORT. The laws of reading and writing FB, and that every operation keeps its canonical
form. -/

namespace Sys2Proof.Machine

@[simp] theorem Memory.read_write_same (m : Memory) (a : Nat) (v : Byte) :
    (m.write a v).read a = v := by
  induction m with
  | nil => simp [Memory.write, Memory.read]
  | cons x t ih =>
    obtain ⟨b, w⟩ := x
    unfold Memory.write
    split_ifs with h1 h2
    · simp [Memory.read]
    · simp [Memory.read]
    · simp [Memory.read, h1, ih]

theorem Memory.read_write_other (m : Memory) {a c : Nat} (v : Byte) (h : c ≠ a) :
    (m.write a v).read c = m.read c := by
  induction m with
  | nil => simp [Memory.write, Memory.read, h]
  | cons x t ih =>
    obtain ⟨b, w⟩ := x
    unfold Memory.write
    split_ifs with h1 h2
    · subst h1; simp [Memory.read, h]
    · simp [Memory.read, h]
    · simp only [Memory.read]; split_ifs <;> simp_all

/-- Reading after a write, in one equation. -/
theorem Memory.read_write (m : Memory) (a c : Nat) (v : Byte) :
    (m.write a v).read c = if c = a then v else m.read c := by
  split_ifs with h
  · subst h; simp
  · exact Memory.read_write_other m v h

theorem Memory.wf_iff (m : Memory) : m.wf = true ↔ m.map Prod.fst = List.range Config.fbLen := by
  simp [Memory.wf]

/-- A write to a listed index keeps the list of indexes. -/
theorem Memory.keys_write (m : Memory) (a : Nat) (v : Byte)
    (hs : (m.map Prod.fst).Pairwise (· < ·)) (ha : a ∈ m.map Prod.fst) :
    (m.write a v).map Prod.fst = m.map Prod.fst := by
  induction m with
  | nil => simp at ha
  | cons x t ih =>
    obtain ⟨b, w⟩ := x
    simp only [List.map_cons, List.pairwise_cons] at hs
    unfold Memory.write
    split_ifs with h1 h2
    · simp [h1]
    · simp only [List.map_cons, List.mem_cons] at ha
      rcases ha with ha | ha
      · exact absurd ha h1
      · exact absurd (hs.1 a ha) (by omega)
    · simp only [List.map_cons, List.mem_cons] at ha
      simp [ih hs.2 (ha.resolve_left h1)]

theorem Memory.wf_write {m : Memory} (h : m.wf = true) {a : Nat} (ha : a < Config.fbLen)
    (v : Byte) : (m.write a v).wf = true := by
  rw [Memory.wf_iff] at *
  rw [Memory.keys_write m a v (by rw [h]; exact List.pairwise_lt_range) (by rw [h]; simpa using ha), h]

theorem Memory.keys_map (f : Nat → Byte) (l : List Nat) :
    (l.map (fun i => (i, f i))).map Prod.fst = l := by
  rw [List.map_map]
  exact List.map_id l

theorem Memory.cleared_eq :
    Memory.cleared = (List.range Config.fbLen).map (fun i => (i, 0x00#8)) := by
  unfold Memory.cleared; rfl

theorem Memory.afterReset_eq (n : Nat) :
    Memory.afterReset n = (List.range Config.fbLen).map (fun i => (i, Config.fbAfterReset n i)) := by
  unfold Memory.afterReset; rfl

theorem Memory.wf_cleared : Memory.cleared.wf = true := by
  rw [Memory.wf_iff, Memory.cleared_eq]
  exact Memory.keys_map (fun _ => 0x00#8) _

theorem Memory.wf_afterReset (n : Nat) : (Memory.afterReset n).wf = true := by
  rw [Memory.wf_iff, Memory.afterReset_eq]
  exact Memory.keys_map (Config.fbAfterReset n) _

/-- Reading a memory that lists `f i` at each index `i` of a list. -/
theorem Memory.read_map (f : Nat → Byte) (l : List Nat) (a : Nat) (h : a ∈ l) :
    Memory.read (l.map (fun i => (i, f i))) a = f a := by
  induction l with
  | nil => simp at h
  | cons b t ih =>
    simp only [List.map_cons, Memory.read]
    split_ifs with hb
    · rw [hb]
    · exact ih ((List.mem_cons.1 h).resolve_left hb)

theorem Memory.read_cleared {a : Nat} (h : a < Config.fbLen) : Memory.cleared.read a = 0x00#8 := by
  rw [Memory.cleared_eq]
  exact Memory.read_map (fun _ => 0x00#8) _ a (List.mem_range.2 h)

theorem Memory.read_afterReset (n : Nat) {a : Nat} (h : a < Config.fbLen) :
    (Memory.afterReset n).read a = Config.fbAfterReset n a := by
  rw [Memory.afterReset_eq]
  exact Memory.read_map (Config.fbAfterReset n) _ a (List.mem_range.2 h)

end Sys2Proof.Machine
end

