-- ==== Sys2Proof/Laws/Pixel.lean ====
section
/-! SUPPORT. The pixel addresser and SetPixel: where a call goes, what it does to each pixel and each
byte, and the same for a command's whole sequence of calls. -/

namespace Sys2Proof.Machine

/-! ## Addresses -/

theorem wrapCol_lt (n : Nat) : wrapCol n < 84 := Nat.mod_lt _ (by decide)
theorem wrapRow_lt (n : Nat) : wrapRow n < 48 := Nat.mod_lt _ (by decide)
theorem wrapBank_lt (n : Nat) : wrapBank n < 6 := Nat.mod_lt _ (by decide)

theorem wrapCol_of_lt {n : Nat} (h : n < 84) : wrapCol n = n := Nat.mod_eq_of_lt h
theorem wrapRow_of_lt {n : Nat} (h : n < 48) : wrapRow n = n := Nat.mod_eq_of_lt h
theorem wrapBank_of_lt {n : Nat} (h : n < 6) : wrapBank n = n := Nat.mod_eq_of_lt h

theorem pixelIndex_lt {c r : Nat} (hc : c < 84) (hr : r < 48) : pixelIndex c r < 504 := by
  unfold pixelIndex Config.width; omega

theorem bankIndex_lt {c k : Nat} (hc : c < 84) (hk : k < 6) : bankIndex c k < 504 := by
  unfold bankIndex Config.width; omega

theorem pixelTarget_lt (col row : Nat) : pixelTarget col row < 504 :=
  pixelIndex_lt (wrapCol_lt _) (wrapRow_lt _)

theorem bankTarget_lt (col bank : Nat) : bankTarget col bank < 504 :=
  bankIndex_lt (wrapCol_lt _) (wrapBank_lt _)

theorem pixelTargetBit_lt (row : Nat) : pixelTargetBit row < 8 := Nat.mod_lt _ (by decide)

/-- Two pixels share a byte exactly when they share the column and the bank. -/
theorem pixelIndex_inj {c r c' r' : Nat} (hc : c < 84) (hc' : c' < 84) :
    pixelIndex c r = pixelIndex c' r' ↔ c = c' ∧ r / 8 = r' / 8 := by
  unfold pixelIndex Config.width; omega

/-! ## One byte -/

theorem getLsbD_one_shiftLeft (b j : Nat) (hj : j < 8) :
    (1#8 <<< b).getLsbD j = decide (j = b) := by
  by_cases h : j = b
  · subst h; simp [hj]
  · by_cases hlt : j < b
    · simp [hlt, h]
    · have : j - b ≠ 0 := by omega
      simp [hj, h, this]

/-- Bit `j` of the byte SetPixel writes (R103). -/
theorem composeByte_getLsbD (mode : DrawMode) (old : Byte) (v : Bool) {b j : Nat} (hj : j < 8) :
    (composeByte mode old (1#8 <<< b) v).getLsbD j =
      if j = b then compose mode (old.getLsbD j) v else old.getLsbD j := by
  have hm := getLsbD_one_shiftLeft b j hj
  cases mode <;> cases v <;> simp only [composeByte, compose, if_true, if_false, BitVec.getLsbD_or,
    BitVec.getLsbD_and, BitVec.getLsbD_xor, BitVec.getLsbD_not, hm, hj, decide_true,
    Bool.true_and, Bool.false_eq_true] <;> by_cases h : j = b <;> simp [h]

/-! ## SetPixel -/

theorem setPixel_read (mode : DrawMode) (m : Memory) (col row value a : Nat) :
    (setPixel mode m col row value).read a =
      if a = pixelTarget col row then
        composeByte mode (m.read a) (1#8 <<< pixelTargetBit row) (truthy value)
      else m.read a := by
  unfold setPixel
  rw [Memory.read_write]
  split_ifs with h
  · rw [h]
  · rfl

theorem setPixel_wf {m : Memory} (h : m.wf = true) (mode : DrawMode) (col row value : Nat) :
    (setPixel mode m col row value).wf = true :=
  Memory.wf_write h (pixelTarget_lt _ _) _

/-- What SetPixel does to each pixel (R102, R103). -/
theorem setPixel_pixel (mode : DrawMode) (m : Memory) (col row value : Nat) {c r : Nat}
    (hc : c < 84) :
    (setPixel mode m col row value).pixel c r =
      if wrapCol col = c ∧ wrapRow row % 8 = r % 8 ∧ wrapRow row / 8 = r / 8 then
        compose mode (m.pixel c r) (truthy value)
      else m.pixel c r := by
  have hb : pixelBit r < 8 := Nat.mod_lt _ (by decide)
  unfold Memory.pixel
  rw [setPixel_read]
  by_cases h : pixelIndex c r = pixelTarget col row
  · have h' := (pixelIndex_inj hc (wrapCol_lt col)).1 h
    rw [if_pos h, composeByte_getLsbD _ _ _ hb]
    by_cases hbit : pixelBit r = pixelTargetBit row
    · rw [if_pos hbit, if_pos ⟨h'.1.symm, hbit.symm, h'.2.symm⟩]
    · rw [if_neg hbit, if_neg (fun hh => hbit hh.2.1.symm)]
  · rw [if_neg h, if_neg]
    rintro ⟨h1, -, h2⟩
    exact h ((pixelIndex_inj hc (wrapCol_lt col)).2 ⟨h1.symm, h2.symm⟩)

/-! ## A sequence of SetPixel calls -/

@[simp] theorem composeHits_nil (mode : DrawMode) (c r : Nat) (old : Bool) :
    composeHits mode c r [] old = old := rfl

theorem composeHits_cons (mode : DrawMode) (c r : Nat) (p : Plot) (ps : List Plot) (old : Bool) :
    composeHits mode c r (p :: ps) old =
      composeHits mode c r ps
        (if wrapCol p.col = c ∧ wrapRow p.row = r then compose mode old (truthy p.value) else old) :=
  rfl

theorem composeHits_append (mode : DrawMode) (c r : Nat) (ps qs : List Plot) (old : Bool) :
    composeHits mode c r (ps ++ qs) old =
      composeHits mode c r qs (composeHits mode c r ps old) :=
  List.foldl_append

/-- A pixel no call goes to keeps its bit. -/
theorem composeHits_miss (mode : DrawMode) (c r : Nat) (ps : List Plot) (old : Bool)
    (h : ∀ p ∈ ps, ¬(wrapCol p.col = c ∧ wrapRow p.row = r)) :
    composeHits mode c r ps old = old := by
  induction ps with
  | nil => rfl
  | cons p ps ih =>
    rw [composeHits_cons, if_neg (h p (by simp)), ih (fun q hq => h q (by simp [hq]))]

@[simp] theorem plotAll_nil (mode : DrawMode) (m : Memory) : plotAll mode m [] = m := rfl

theorem plotAll_cons (mode : DrawMode) (m : Memory) (p : Plot) (ps : List Plot) :
    plotAll mode m (p :: ps) = plotAll mode (plot mode m p) ps := rfl

theorem plotAll_append (mode : DrawMode) (m : Memory) (ps qs : List Plot) :
    plotAll mode m (ps ++ qs) = plotAll mode (plotAll mode m ps) qs := List.foldl_append

theorem plotAll_wf {m : Memory} (h : m.wf = true) (mode : DrawMode) (ps : List Plot) :
    (plotAll mode m ps).wf = true := by
  induction ps generalizing m with
  | nil => exact h
  | cons p ps ih => exact ih (setPixel_wf h mode _ _ _)

/-- A byte no call goes to reads as before. -/
theorem plotAll_read_miss (mode : DrawMode) (m : Memory) (ps : List Plot) (a : Nat)
    (h : ∀ p ∈ ps, pixelTarget p.col p.row ≠ a) : (plotAll mode m ps).read a = m.read a := by
  induction ps generalizing m with
  | nil => rfl
  | cons p ps ih =>
    rw [plotAll_cons, ih _ (fun q hq => h q (by simp [hq])), plot, setPixel_read,
      if_neg (h p (by simp)).symm]

/-- Every pixel ends with the bit `composeHits` gives. -/
theorem plotAll_pixel (mode : DrawMode) (m : Memory) (ps : List Plot) {c r : Nat}
    (hc : c < 84) :
    (plotAll mode m ps).pixel c r = composeHits mode c r ps (m.pixel c r) := by
  induction ps generalizing m with
  | nil => rfl
  | cons p ps ih =>
    rw [plotAll_cons, ih, composeHits_cons, plot, setPixel_pixel _ _ _ _ _ hc]
    have hw := wrapRow_lt p.row
    congr 1
    exact if_congr (by constructor <;> rintro ⟨h1, h2⟩ <;> refine ⟨h1, ?_⟩ <;> omega) rfl rfl

/-- The whole effect of a sequence of SetPixel calls on FB. -/
theorem plotAll_drawn (mode : DrawMode) (m : Memory) (ps : List Plot) :
    Drawn mode ps m (plotAll mode m ps) :=
  ⟨fun _ _ hc _ => plotAll_pixel mode m ps hc, fun a h => plotAll_read_miss mode m ps a h⟩

/-! ## Bytes from pixels -/

/-- Two framebuffers with the same pixels have the same bytes. -/
theorem read_eq_of_pixels {m m' : Memory}
    (h : ∀ c r, c < 84 → r < 48 → m.pixel c r = m'.pixel c r) {a : Nat} (ha : a < 504) :
    m.read a = m'.read a := by
  apply BitVec.eq_of_getLsbD_eq
  intro j hj
  have key := h (a % 84) (8 * (a / 84) + j) (by omega) (by omega)
  unfold Memory.pixel pixelIndex pixelBit Config.width at key
  have e1 : a % 84 + (8 * (a / 84) + j) / 8 * 84 = a := by omega
  have e2 : (8 * (a / 84) + j) % 8 = j := by omega
  rwa [e1, e2] at key

/-- Two sequences of calls that give every pixel the same bit leave the same bytes everywhere. -/
theorem plotAll_read_congr {mode mode' : DrawMode} {m : Memory} {ps ps' : List Plot}
    (h : ∀ c r old, composeHits mode c r ps old = composeHits mode' c r ps' old) (a : Nat) :
    (plotAll mode m ps).read a = (plotAll mode' m ps').read a := by
  by_cases ha : a < 504
  · refine read_eq_of_pixels (fun c r hc _ => ?_) ha
    rw [plotAll_pixel _ _ _ hc, plotAll_pixel _ _ _ hc, h]
  · have out : ∀ (md : DrawMode) (qs : List Plot), (plotAll md m qs).read a = m.read a :=
      fun md qs => plotAll_read_miss md m qs a
        (fun p _ he => ha (he ▸ pixelTarget_lt p.col p.row))
    rw [out, out]

/-- Calls that differ only by wrapping do the same (R43). -/
theorem setPixel_congr (mode : DrawMode) (m : Memory) {col col' row row' : Nat} (value : Nat)
    (hc : wrapCol col = wrapCol col') (hr : wrapRow row = wrapRow row') :
    setPixel mode m col row value = setPixel mode m col' row' value := by
  unfold setPixel pixelTarget pixelTargetBit
  rw [hc, hr]

/-- When every call to a pixel carries the bit `v`, the pixel is composed with `v` that many
times. -/
theorem composeHits_const (mode : DrawMode) (c r : Nat) (v : Bool) (ps : List Plot) (old : Bool)
    (h : ∀ p ∈ ps, (wrapCol p.col = c ∧ wrapRow p.row = r) → truthy p.value = v) :
    composeHits mode c r ps old =
      (fun b => compose mode b v)^[ps.countP (fun p => decide (wrapCol p.col = c ∧ wrapRow p.row = r))] old := by
  induction ps generalizing old with
  | nil => rfl
  | cons p ps ih =>
    rw [composeHits_cons, ih _ (fun q hq => h q (by simp [hq]))]
    by_cases hp : wrapCol p.col = c ∧ wrapRow p.row = r
    · rw [if_pos hp, h p (by simp) hp, List.countP_cons_of_pos (by simpa using hp),
        Function.iterate_succ_apply]
    · rw [if_neg hp, List.countP_cons_of_neg (by simpa using hp)]

end Sys2Proof.Machine
end

