-- ==== Sys2Proof/Laws/Cells.lean ====
section
/-! SUPPORT. Which SetPixel calls each drawing procedure makes, and what a sequence of calls to
distinct pixels does. -/

namespace Sys2Proof.Machine

/-! ## One bit of a byte -/

theorem and_bit_eq (x : Byte) {b : Nat} (hb : b < 8) :
    x &&& (1#8 <<< b) = if x.getLsbD b then 1#8 <<< b else 0#8 := by
  apply BitVec.eq_of_getLsbD_eq
  intro i hi
  rw [BitVec.getLsbD_and, getLsbD_one_shiftLeft _ _ hi]
  by_cases h : i = b
  · subst h; cases hx : x.getLsbD i <;> simp_all
  · have := getLsbD_one_shiftLeft b i hi
    split_ifs <;> simp_all

theorem bit_ne_zero {b : Nat} (hb : b < 8) : 1#8 <<< b ≠ 0#8 :=
  (by decide : ∀ b : Nat, b < 8 → 1#8 <<< b ≠ 0#8) b hb

/-- The value DrawGlyph hands over is truthy exactly when the glyph's bit is set (R101, R140). -/
theorem truthy_masked (x : Byte) {b : Nat} (hb : b < 8) :
    truthy (x &&& (1#8 <<< b)).toNat = x.getLsbD b := by
  rw [and_bit_eq x hb]
  cases x.getLsbD b
  · rfl
  · exact (by decide : ∀ b : Nat, b < 8 → truthy (1#8 <<< b).toNat = true) b hb

theorem truthy_toNat (b : Bool) : truthy b.toNat = b := by cases b <;> rfl

theorem truthy_byte (v : Byte) : truthy v.toNat = decide (v ≠ 0) := by
  unfold truthy; congr 1; simp [BitVec.toNat_eq]

/-- A byte is known from the eight pixels it holds (R21). -/
theorem read_of_pixels (m : Memory) {a : Nat} (v : Byte)
    (h : ∀ b, b < 8 → m.pixel (a % 84) (8 * (a / 84) + b) = v.getLsbD b) : m.read a = v := by
  apply BitVec.eq_of_getLsbD_eq
  intro j hj
  have key := h j hj
  unfold Memory.pixel pixelIndex pixelBit Config.width at key
  have e1 : a % 84 + (8 * (a / 84) + j) / 8 * 84 = a := by omega
  have e2 : (8 * (a / 84) + j) % 8 = j := by omega
  rwa [e1, e2] at key

/-! ## Calls to distinct pixels -/

/-- Among calls to distinct pixels, a pixel a call goes to is composed with that call alone. -/
theorem composeHits_once (mode : DrawMode) {ps : List Plot} {p : Plot} (old : Bool)
    (h : ps.Pairwise (fun p q => ¬(wrapCol p.col = wrapCol q.col ∧ wrapRow p.row = wrapRow q.row)))
    (hp : p ∈ ps) :
    composeHits mode (wrapCol p.col) (wrapRow p.row) ps old = compose mode old (truthy p.value) := by
  induction ps generalizing old with
  | nil => simp at hp
  | cons q qs ih =>
    rw [List.pairwise_cons] at h
    rw [composeHits_cons]
    rcases List.mem_cons.1 hp with rfl | hq
    · rw [if_pos ⟨rfl, rfl⟩, composeHits_miss]
      rintro r hr ⟨e1, e2⟩; exact h.1 r hr ⟨e1.symm, e2.symm⟩
    · rw [if_neg (h.1 p hq), ih _ h.2 hq]

/-- The whole effect of a sequence of calls to distinct pixels. -/
theorem drawnCells_of_distinct (mode : DrawMode) (m : Memory) {ps : List Plot}
    {R : Nat → Nat → Bool → Prop}
    (h : ps.Pairwise (fun p q => ¬(wrapCol p.col = wrapCol q.col ∧ wrapRow p.row = wrapRow q.row)))
    (hR : ∀ x y v, R x y v ↔ ∃ p ∈ ps, p.col = x ∧ p.row = y ∧ truthy p.value = v) :
    DrawnCells mode R m (plotAll mode m ps) := by
  refine ⟨?_, ?_, ?_⟩
  · intro x y v hr
    obtain ⟨p, hp, rfl, rfl, rfl⟩ := (hR x y v).1 hr
    rw [plotAll_pixel _ _ _ (wrapCol_lt _), composeHits_once _ _ h hp]
  · intro c r hc _ hm
    rw [plotAll_pixel _ _ _ hc, composeHits_miss]
    exact fun p hp => hm _ _ _ ((hR _ _ _).2 ⟨p, hp, rfl, rfl, rfl⟩)
  · intro a hm
    exact plotAll_read_miss _ _ _ _ (fun p hp => hm _ _ _ ((hR _ _ _).2 ⟨p, hp, rfl, rfl, rfl⟩))

/-- Calls that agree cell by cell, up to wrapping, do the same (R43). -/
theorem plotAll_map_congr {α : Type} (mode : DrawMode) (m : Memory) (l : List α) (f g : α → Plot)
    (h : ∀ x ∈ l, wrapCol (f x).col = wrapCol (g x).col ∧ wrapRow (f x).row = wrapRow (g x).row ∧
      (f x).value = (g x).value) :
    plotAll mode m (l.map f) = plotAll mode m (l.map g) := by
  induction l generalizing m with
  | nil => rfl
  | cons p ps ih =>
    rw [List.map_cons, List.map_cons, plotAll_cons, plotAll_cons,
      ih _ (fun q hq => h q (by simp [hq]))]
    obtain ⟨a, b, c⟩ := h p (by simp)
    simp only [plot]
    rw [c, setPixel_congr _ _ _ a b]

/-! ## The calls of each procedure -/

theorem mem_rectPlots (P : Config.Params) (fill : FillMode) (c0 r0 c1 r1 : Nat) (p : Plot) :
    p ∈ rectPlots P fill c0 r0 c1 r1 ↔
      ∃ c r, (c0 ≤ c ∧ c ≤ c1) ∧ (r0 ≤ r ∧ r < r1) ∧ p = ⟨c, r, (P.fillPred fill c r).toNat⟩ := by
  simp only [rectPlots, ascending, List.mem_flatMap, List.mem_map, List.mem_range'_1]
  constructor
  · rintro ⟨c, h1, r, h2, rfl⟩; exact ⟨c, r, by omega, by omega, rfl⟩
  · rintro ⟨c, r, h1, h2, rfl⟩; exact ⟨c, by omega, r, by omega, rfl⟩

theorem mem_glyphPlots (P : Config.Params) (g col row : Nat) (p : Plot) :
    p ∈ glyphPlots P g col row ↔
      ∃ i b, i < 5 ∧ b < 8 ∧ p = ⟨col + i, row + b, (P.font g i &&& (1#8 <<< b)).toNat⟩ := by
  simp only [glyphPlots, List.mem_flatMap, List.mem_map, List.mem_range, Config.glyphCols,
    Config.glyphRows]
  constructor
  · rintro ⟨i, hi, b, hb, rfl⟩; exact ⟨i, b, hi, hb, rfl⟩
  · rintro ⟨i, b, hi, hb, rfl⟩; exact ⟨i, hi, b, hb, rfl⟩

/-- Which characters of a string are drawn (R142). -/
theorem lt_nprint {x0 : Nat} (n k : Nat) (h : x0 < 84) :
    k < nprint x0 n ↔ k < n ∧ x0 + 6 * k + 6 ≤ 84 := by
  simp only [nprint, Config.width, Config.cellAdvance]; omega

theorem mem_stringPlots (P : Config.Params) (text : List Byte) (col row : Nat) (p : Plot) :
    p ∈ stringPlots P text col row ↔
      ∃ k ch, text[k]? = some ch ∧ wrapCol col + 6 * k + 6 ≤ 84 ∧
        p ∈ glyphPlots P (glyphNumber ch) (wrapCol col + 6 * k) row := by
  have hlt := wrapCol_lt col
  simp only [stringPlots, List.mem_flatMap, Prod.exists, List.mk_mem_zipIdx_iff_getElem?]
  constructor
  · rintro ⟨ch, k, h, hp⟩
    rw [List.getElem?_take] at h
    split_ifs at h with hk
    exact ⟨k, ch, h, ((lt_nprint text.length k hlt).1 hk).2, hp⟩
  · rintro ⟨k, ch, h, hk, hp⟩
    refine ⟨ch, k, ?_, hp⟩
    rw [List.getElem?_take, if_pos, h]
    exact (lt_nprint text.length k hlt).2 ⟨(List.getElem?_eq_some_iff.1 h).1, hk⟩

theorem mem_blitPlots (P : Config.Params) (w h : Nat) (src : Nat → Nat → Bool) (col row : Nat)
    (xf : Transform) (p : Plot) :
    p ∈ blitPlots P w h src col row xf ↔
      ∃ x y, x < w ∧ y < h ∧
        p = ⟨col + (P.xform xf.rot xf.mir w h x y).1, row + (P.xform xf.rot xf.mir w h x y).2,
          (src x y ^^ xf.inv).toNat⟩ := by
  simp only [blitPlots, List.mem_flatMap, List.mem_map, List.mem_range]
  constructor
  · rintro ⟨y, hy, x, hx, rfl⟩; exact ⟨x, y, hx, hy, rfl⟩
  · rintro ⟨x, y, hx, hy, rfl⟩; exact ⟨y, hy, x, hx, rfl⟩

/-- The sequence of a line's cells, by position. -/
theorem lineCursors_getElem?_zero (z : Bool) (major minor : Nat) (sp sq : Int) (n : Nat)
    (k : LineCursor) : (lineCursors z major minor sp sq n k)[0]? = some k := by
  cases n <;> rfl

theorem lineCursors_getElem?_succ (z : Bool) (major minor : Nat) (sp sq : Int) (n i : Nat)
    (k : LineCursor) :
    (lineCursors z major minor sp sq (n + 1) k)[i + 1]? =
      (lineCursors z major minor sp sq n (k.advance z major minor sp sq))[i]? := rfl

theorem lineCursors_length (z : Bool) (major minor : Nat) (sp sq : Int) (n : Nat)
    (k : LineCursor) : (lineCursors z major minor sp sq n k).length = n + 1 := by
  induction n generalizing k with
  | zero => rfl
  | succ n ih => simp [lineCursors, ih]

end Sys2Proof.Machine
end

