-- ==== Sys2Proof/Laws/Decode.lean ====
section
/-! SUPPORT. The fields of a command word in terms of its header bytes, and masking byte by byte. -/

namespace Sys2Proof

variable (h0 h1 h2 h3 h4 h5 h6 h7 : Byte)

/-- Bit `i` of the command word, in terms of the header bytes (R60). -/
theorem headerWord_getLsbD (i : Nat) :
    (headerWord h0 h1 h2 h3 h4 h5 h6 h7).getLsbD i =
      if i < 8 then h7.getLsbD i
      else if i < 16 then h6.getLsbD (i - 8)
      else if i < 24 then h5.getLsbD (i - 16)
      else if i < 32 then h4.getLsbD (i - 24)
      else if i < 40 then h3.getLsbD (i - 32)
      else if i < 48 then h2.getLsbD (i - 40)
      else if i < 56 then h1.getLsbD (i - 48)
      else h0.getLsbD (i - 56) := by
  unfold headerWord
  simp only [BitVec.getLsbD_append]
  split_ifs <;> first | rfl | omega

theorem opField_headerWord : opField (headerWord h0 h1 h2 h3 h4 h5 h6 h7) = h0 := by
  apply BitVec.eq_of_getLsbD_eq
  intro i hi
  simp only [opField, BitVec.getLsbD_extractLsb', hi, decide_true, Bool.true_and, headerWord_getLsbD]
  split_ifs <;> first | omega | (congr 1; omega)

theorem aField_headerWord : aField (headerWord h0 h1 h2 h3 h4 h5 h6 h7) = h2 := by
  apply BitVec.eq_of_getLsbD_eq
  intro i hi
  simp only [aField, BitVec.getLsbD_extractLsb', hi, decide_true, Bool.true_and, headerWord_getLsbD]
  split_ifs <;> first | omega | (congr 1; omega)

theorem bField_headerWord : bField (headerWord h0 h1 h2 h3 h4 h5 h6 h7) = h3 := by
  apply BitVec.eq_of_getLsbD_eq
  intro i hi
  simp only [bField, BitVec.getLsbD_extractLsb', hi, decide_true, Bool.true_and, headerWord_getLsbD]
  split_ifs <;> first | omega | (congr 1; omega)

theorem cField_headerWord : cField (headerWord h0 h1 h2 h3 h4 h5 h6 h7) = h4 := by
  apply BitVec.eq_of_getLsbD_eq
  intro i hi
  simp only [cField, BitVec.getLsbD_extractLsb', hi, decide_true, Bool.true_and, headerWord_getLsbD]
  split_ifs <;> first | omega | (congr 1; omega)

theorem dField_headerWord : dField (headerWord h0 h1 h2 h3 h4 h5 h6 h7) = h5 := by
  apply BitVec.eq_of_getLsbD_eq
  intro i hi
  simp only [dField, BitVec.getLsbD_extractLsb', hi, decide_true, Bool.true_and, headerWord_getLsbD]
  split_ifs <;> first | omega | (congr 1; omega)

theorem lenField_headerWord :
    lenField (headerWord h0 h1 h2 h3 h4 h5 h6 h7) = h6 ++ h7 := by
  apply BitVec.eq_of_getLsbD_eq
  intro i hi
  simp only [lenField, BitVec.getLsbD_extractLsb', hi, decide_true, Bool.true_and,
    headerWord_getLsbD, BitVec.getLsbD_append]
  split_ifs <;> first | omega | (congr 1; omega)

/-- LEN is the two last header bytes, high byte first (R61, R65). -/
theorem lenField_toNat :
    (lenField (headerWord h0 h1 h2 h3 h4 h5 h6 h7)).toNat = 256 * h6.toNat + h7.toNat := by
  rw [lenField_headerWord, BitVec.toNat_append, ← Nat.shiftLeft_add_eq_or_of_lt h7.isLt,
    Nat.shiftLeft_eq]
  omega

theorem modeField_headerWord :
    modeField (headerWord h0 h1 h2 h3 h4 h5 h6 h7) = h1.extractLsb' 0 2 := by
  apply BitVec.eq_of_getLsbD_eq
  intro i hi
  simp only [modeField, BitVec.getLsbD_extractLsb', hi, decide_true, Bool.true_and,
    headerWord_getLsbD]
  split_ifs <;> first | omega | (congr 1; omega)

theorem fillField_headerWord :
    fillField (headerWord h0 h1 h2 h3 h4 h5 h6 h7) = h1.extractLsb' 2 3 := by
  apply BitVec.eq_of_getLsbD_eq
  intro i hi
  simp only [fillField, BitVec.getLsbD_extractLsb', hi, decide_true, Bool.true_and,
    headerWord_getLsbD]
  split_ifs <;> first | omega | (congr 1; omega)

theorem rotField_headerWord :
    rotField (headerWord h0 h1 h2 h3 h4 h5 h6 h7) = h1.extractLsb' 2 2 := by
  apply BitVec.eq_of_getLsbD_eq
  intro i hi
  simp only [rotField, BitVec.getLsbD_extractLsb', hi, decide_true, Bool.true_and,
    headerWord_getLsbD]
  split_ifs <;> first | omega | (congr 1; omega)

theorem mirField_headerWord :
    mirField (headerWord h0 h1 h2 h3 h4 h5 h6 h7) = h1.getLsbD 4 := by
  rw [mirField, headerWord_getLsbD]; simp

theorem invField_headerWord :
    invField (headerWord h0 h1 h2 h3 h4 h5 h6 h7) = h1.getLsbD 5 := by
  rw [invField, headerWord_getLsbD]; simp

/-- Masking a command word masks its header bytes. -/
theorem headerWord_and (m0 m1 m2 m3 m4 m5 m6 m7 : Byte) :
    headerWord h0 h1 h2 h3 h4 h5 h6 h7 &&& headerWord m0 m1 m2 m3 m4 m5 m6 m7 =
      headerWord (h0 &&& m0) (h1 &&& m1) (h2 &&& m2) (h3 &&& m3) (h4 &&& m4) (h5 &&& m5)
        (h6 &&& m6) (h7 &&& m7) := by
  apply BitVec.eq_of_getLsbD_eq
  intro i _
  simp only [BitVec.getLsbD_and, headerWord_getLsbD]
  split_ifs <;> rfl

/-- The command word determines its header bytes. -/
theorem headerWord_inj {g0 g1 g2 g3 g4 g5 g6 g7 : Byte} :
    headerWord h0 h1 h2 h3 h4 h5 h6 h7 = headerWord g0 g1 g2 g3 g4 g5 g6 g7 ↔
      h0 = g0 ∧ h1 = g1 ∧ h2 = g2 ∧ h3 = g3 ∧ h4 = g4 ∧ h5 = g5 ∧ h6 = g6 ∧ h7 = g7 := by
  constructor
  · intro h
    have key : ∀ i, (headerWord h0 h1 h2 h3 h4 h5 h6 h7).getLsbD i =
        (headerWord g0 g1 g2 g3 g4 g5 g6 g7).getLsbD i := fun i => by rw [h]
    refine ⟨?_, ?_, ?_, ?_, ?_, ?_, ?_, ?_⟩ <;> apply BitVec.eq_of_getLsbD_eq <;> intro i hi
    · have := key (56 + i); simp only [headerWord_getLsbD] at this
      simpa [show ¬ 56 + i < 8 by omega, show ¬ 56 + i < 16 by omega, show ¬ 56 + i < 24 by omega,
        show ¬ 56 + i < 32 by omega, show ¬ 56 + i < 40 by omega, show ¬ 56 + i < 48 by omega,
        show ¬ 56 + i < 56 by omega] using this
    · have := key (48 + i); simp only [headerWord_getLsbD] at this
      simpa [show ¬ 48 + i < 8 by omega, show ¬ 48 + i < 16 by omega, show ¬ 48 + i < 24 by omega,
        show ¬ 48 + i < 32 by omega, show ¬ 48 + i < 40 by omega, show ¬ 48 + i < 48 by omega,
        show 48 + i < 56 by omega] using this
    · have := key (40 + i); simp only [headerWord_getLsbD] at this
      simpa [show ¬ 40 + i < 8 by omega, show ¬ 40 + i < 16 by omega, show ¬ 40 + i < 24 by omega,
        show ¬ 40 + i < 32 by omega, show ¬ 40 + i < 40 by omega, show 40 + i < 48 by omega] using this
    · have := key (32 + i); simp only [headerWord_getLsbD] at this
      simpa [show ¬ 32 + i < 8 by omega, show ¬ 32 + i < 16 by omega, show ¬ 32 + i < 24 by omega,
        show ¬ 32 + i < 32 by omega, show 32 + i < 40 by omega] using this
    · have := key (24 + i); simp only [headerWord_getLsbD] at this
      simpa [show ¬ 24 + i < 8 by omega, show ¬ 24 + i < 16 by omega, show ¬ 24 + i < 24 by omega,
        show 24 + i < 32 by omega] using this
    · have := key (16 + i); simp only [headerWord_getLsbD] at this
      simpa [show ¬ 16 + i < 8 by omega, show ¬ 16 + i < 16 by omega, show 16 + i < 24 by omega]
        using this
    · have := key (8 + i); simp only [headerWord_getLsbD] at this
      simpa [show ¬ 8 + i < 8 by omega, show 8 + i < 16 by omega] using this
    · have := key i; simp only [headerWord_getLsbD] at this
      simpa [hi] using this
  · rintro ⟨rfl, rfl, rfl, rfl, rfl, rfl, rfl, rfl⟩; rfl

/-- The decoder on a stream of at least eight bytes, with LEN in terms of the header bytes (R63). -/
theorem decode_cons (tl : List Byte) :
    decode (h0 :: h1 :: h2 :: h3 :: h4 :: h5 :: h6 :: h7 :: tl) =
      if tl.length < 256 * h6.toNat + h7.toNat then .incomplete
      else decodePacket (headerWord h0 h1 h2 h3 h4 h5 h6 h7)
        (tl.take (256 * h6.toNat + h7.toNat)) (tl.drop (256 * h6.toNat + h7.toNat)) := by
  simp only [decode, lenField_toNat]

/-- A stream of fewer than eight bytes holds no packet. -/
theorem decode_short {bs : List Byte} (h : bs.length < 8) : decode bs = .incomplete := by
  match bs, h with
  | [], _ => rfl
  | [_], _ => rfl
  | [_, _], _ => rfl
  | [_, _, _], _ => rfl
  | [_, _, _, _], _ => rfl
  | [_, _, _, _, _], _ => rfl
  | [_, _, _, _, _, _], _ => rfl
  | [_, _, _, _, _, _, _], _ => rfl
  | _ :: _ :: _ :: _ :: _ :: _ :: _ :: _ :: _, h => simp at h; omega

/-- Decoding a command word whose OP has a row, byte by byte (R73). -/
theorem decodeCommand_of_row {row : OpRow} (pay : List Byte)
    (hrow : opRows.find? (fun r => r.code == h0) = some row)
    {m0 m1 m2 m3 m4 m5 m6 m7 : Byte} (hm : row.mask = headerWord m0 m1 m2 m3 m4 m5 m6 m7)
    {p0 p1 p2 p3 p4 p5 p6 p7 : Byte} (hp : row.pattern = headerWord p0 p1 p2 p3 p4 p5 p6 p7) :
    decodeCommand (headerWord h0 h1 h2 h3 h4 h5 h6 h7) pay =
      if h0 &&& m0 = p0 ∧ h1 &&& m1 = p1 ∧ h2 &&& m2 = p2 ∧ h3 &&& m3 = p3 ∧ h4 &&& m4 = p4 ∧
          h5 &&& m5 = p5 ∧ h6 &&& m6 = p6 ∧ h7 &&& m7 = p7 then
        operands row.op (headerWord h0 h1 h2 h3 h4 h5 h6 h7) pay
      else .error .reservedNotZero := by
  simp only [decodeCommand, opField_headerWord, hrow, hm, hp, headerWord_and, headerWord_inj]

@[simp] theorem DrawMode.ofCode_code (mode : DrawMode) : DrawMode.ofCode mode.code = mode := by
  cases mode <;> rfl

@[simp] theorem FillMode.ofCode_code (fill : FillMode) :
    FillMode.ofCode fill.code = some fill := by cases fill <;> rfl

@[simp] theorem Rotation.ofCode_code (rot : Rotation) : Rotation.ofCode rot.code = rot := by
  cases rot <;> rfl

end Sys2Proof
end

