-- ==== Sys2Proof/Laws/State.lean ====
section
/-! SUPPORT. What each update of the state does to each field, true by unfolding once. -/

namespace Sys2Proof.Machine

variable (s : State)

@[simp] theorem complete_fb : (complete s).fb = s.fb := rfl
@[simp] theorem complete_status : (complete s).status = 0x00#8 := rfl
@[simp] theorem complete_result : (complete s).result = s.result := rfl
@[simp] theorem complete_out : (complete s).out = s.out := rfl
@[simp] theorem complete_input : (complete s).input = s.input := rfl
@[simp] theorem complete_resets : (complete s).resets = s.resets := rfl

@[simp] theorem raiseError_fb (e : ErrorCode) : (raiseError e s).fb = s.fb := rfl
@[simp] theorem raiseError_status (e : ErrorCode) : (raiseError e s).status = statusOf e.code := rfl
@[simp] theorem raiseError_result (e : ErrorCode) : (raiseError e s).result = s.result := rfl
@[simp] theorem raiseError_out (e : ErrorCode) : (raiseError e s).out = s.out := rfl
@[simp] theorem raiseError_input (e : ErrorCode) : (raiseError e s).input = s.input := rfl
@[simp] theorem raiseError_resets (e : ErrorCode) : (raiseError e s).resets = s.resets := rfl

@[simp] theorem draw_fb (mode : DrawMode) (ps : List Plot) :
    (draw mode ps s).fb = plotAll mode s.fb ps := rfl
@[simp] theorem draw_status (mode : DrawMode) (ps : List Plot) :
    (draw mode ps s).status = 0x00#8 := rfl
@[simp] theorem draw_result (mode : DrawMode) (ps : List Plot) :
    (draw mode ps s).result = s.result := rfl
@[simp] theorem draw_out (mode : DrawMode) (ps : List Plot) : (draw mode ps s).out = s.out := rfl
@[simp] theorem draw_input (mode : DrawMode) (ps : List Plot) :
    (draw mode ps s).input = s.input := rfl
@[simp] theorem draw_resets (mode : DrawMode) (ps : List Plot) :
    (draw mode ps s).resets = s.resets := rfl

@[simp] theorem answer_fb (v : Byte) : (answer v s).fb = s.fb := rfl
@[simp] theorem answer_status (v : Byte) : (answer v s).status = 0x00#8 := rfl
@[simp] theorem answer_result (v : Byte) : (answer v s).result = v := rfl
@[simp] theorem answer_out (v : Byte) : (answer v s).out = s.out := rfl
@[simp] theorem answer_input (v : Byte) : (answer v s).input = s.input := rfl
@[simp] theorem answer_resets (v : Byte) : (answer v s).resets = s.resets := rfl

@[simp] theorem consume_fb (rest : List Byte) : (consume rest s).fb = s.fb := rfl
@[simp] theorem consume_status (rest : List Byte) : (consume rest s).status = s.status := rfl
@[simp] theorem consume_result (rest : List Byte) : (consume rest s).result = s.result := rfl
@[simp] theorem consume_out (rest : List Byte) : (consume rest s).out = s.out := rfl
@[simp] theorem consume_input (rest : List Byte) : (consume rest s).input = rest := rfl
@[simp] theorem consume_resets (rest : List Byte) : (consume rest s).resets = s.resets := rfl
@[simp] theorem consume_consume (a b : List Byte) : consume a (consume b s) = consume a s := rfl

@[simp] theorem reset_fb : State.reset.fb = Memory.afterReset 0 := rfl
@[simp] theorem reset_status : State.reset.status = 0x00#8 := rfl
@[simp] theorem reset_result : State.reset.result = 0x00#8 := rfl
@[simp] theorem reset_out : State.reset.out = [] := rfl
@[simp] theorem reset_input : State.reset.input = [] := rfl
@[simp] theorem reset_resets : State.reset.resets = 0 := rfl

@[simp] theorem hostReset_status : s.hostReset.status = 0x00#8 := rfl
@[simp] theorem hostReset_result : s.hostReset.result = 0x00#8 := rfl
@[simp] theorem hostReset_out : s.hostReset.out = [] := rfl
@[simp] theorem hostReset_input : s.hostReset.input = [] := rfl
@[simp] theorem hostReset_fb : s.hostReset.fb = Memory.afterReset (s.resets + 1) := rfl
@[simp] theorem hostReset_resets : s.hostReset.resets = s.resets + 1 := rfl

@[simp] theorem hostSend_fb (bytes : List Byte) : (s.hostSend bytes).fb = s.fb := rfl
@[simp] theorem hostSend_status (bytes : List Byte) : (s.hostSend bytes).status = s.status := rfl
@[simp] theorem hostSend_result (bytes : List Byte) : (s.hostSend bytes).result = s.result := rfl
@[simp] theorem hostSend_out (bytes : List Byte) : (s.hostSend bytes).out = s.out := rfl
@[simp] theorem hostSend_input (bytes : List Byte) :
    (s.hostSend bytes).input = s.input ++ bytes := rfl
@[simp] theorem hostSend_resets (bytes : List Byte) : (s.hostSend bytes).resets = s.resets := rfl

@[simp] theorem withFetchWord_input (nbits w : Nat) :
    (s.withFetchWord nbits w).input = tablePacket nbits w ++ s.input := rfl
@[simp] theorem withFetchWord_fb (nbits w : Nat) : (s.withFetchWord nbits w).fb = s.fb := rfl
@[simp] theorem withFetchWord_status (nbits w : Nat) :
    (s.withFetchWord nbits w).status = s.status := rfl
@[simp] theorem withFetchWord_result (nbits w : Nat) :
    (s.withFetchWord nbits w).result = s.result := rfl
@[simp] theorem withFetchWord_out (nbits w : Nat) : (s.withFetchWord nbits w).out = s.out := rfl
@[simp] theorem withFetchWord_resets (nbits w : Nat) :
    (s.withFetchWord nbits w).resets = s.resets := rfl

/-- The status and result a drawing command starts with do not matter to what it does. -/
theorem draw_withStatusResult (mode : DrawMode) (ps : List Plot) (st r : Byte) :
    draw mode ps { s with status := st, result := r } = { draw mode ps s with result := r } := rfl

/-- The status and result an erroneous command starts with do not matter to what it does. -/
theorem raiseError_withStatusResult (e : ErrorCode) (st r : Byte) :
    raiseError e { s with status := st, result := r } = { raiseError e s with result := r } := rfl

/-- One more step of a run (Host/Core.lean). -/
theorem run_succ (n : Nat) :
    Host.Core.run Sys2Proof.core (n + 1) s =
      match step s with
      | .next t => Host.Core.run Sys2Proof.core n t
      | .fault e => .fault e
      | .refused e => .refused e := by
  have h : Sys2Proof.core.step s = step s := rfl
  simp only [Host.Core.run, h]
  cases step s <;> rfl

/-- A run of no steps. -/
theorem run_zero : Host.Core.run Sys2Proof.core 0 s = .next s := rfl

/-- A successful drawing command leaves everything but FB and STATUS. -/
theorem draw_okDrawing (mode : DrawMode) (ps : List Plot) : OkDrawing s (draw mode ps s) :=
  ⟨rfl, rfl, rfl, rfl, rfl⟩

/-- Writing FB and completing leaves everything but FB and STATUS. -/
theorem complete_fb_okDrawing (m : Memory) : OkDrawing s (complete { s with fb := m }) :=
  ⟨rfl, rfl, rfl, rfl, rfl⟩

end Sys2Proof.Machine
end

