-- ==== Sys2Proof/Laws/Exec.lean ====
section
/-! SUPPORT. What executing a command can do, said once, and the check each command makes. -/

namespace Sys2Proof.Machine

/-! ## The checks -/

theorem printable_iff (ch : Byte) : printable ch = true ↔ InFont ch := by
  simp [printable, InFont, Config.fontFirst, Config.fontLast]

theorem all_printable_iff (text : List Byte) :
    text.all printable = true ↔ ∀ ch ∈ text, InFont ch := by
  simp [List.all_eq_true, printable_iff]

theorem ceilDiv_eight (n : Nat) : ceilDiv n 8 = (n + 7) / 8 := rfl

/-- The header bytes of a payload that has them. -/
theorem payByte_cons (b : Byte) (tl : List Byte) : payByte (b :: tl) 0 = b := rfl

theorem payByte_cons_succ (b : Byte) (tl : List Byte) (k : Nat) (h : k < tl.length) :
    payByte (b :: tl) (k + 1) = payByte tl k := by
  simp [payByte, h]

/-! ## Each command's next state -/

variable (P : Config.Params) (s : State)

theorem pcharWith_accepted {ch : Byte} (h : InFont ch) (col row : Byte) (mode : DrawMode) :
    pcharWith P ch col row mode s =
      .next (draw mode (glyphPlots P (glyphNumber ch) col.toNat row.toNat) s) := by
  rw [pcharWith, if_pos ((printable_iff ch).2 h)]

theorem pcharWith_rejected {ch : Byte} (h : ¬InFont ch) (col row : Byte) (mode : DrawMode) :
    pcharWith P ch col row mode s = .next (raiseError .badChar s) := by
  rw [pcharWith, if_neg (fun hp => h ((printable_iff ch).1 hp))]

theorem pstrWith_accepted {text : List Byte} (h : ∀ ch ∈ text, InFont ch) (col row : Byte)
    (mode : DrawMode) :
    pstrWith P text col row mode s =
      .next (draw mode (stringPlots P text col.toNat row.toNat) s) := by
  rw [pstrWith, if_pos ((all_printable_iff text).2 h)]

theorem pstrWith_rejected {text : List Byte} (h : ¬∀ ch ∈ text, InFont ch) (col row : Byte)
    (mode : DrawMode) : pstrWith P text col row mode s = .next (raiseError .badChar s) := by
  rw [pstrWith, if_neg (fun hp => h ((all_printable_iff text).1 hp))]

/-- BLITP, with the length check as R157 has it. -/
theorem blitpWith_eq (col row width height : Byte) (mode : DrawMode) (xf : Transform)
    (data : List Byte) :
    blitpWith P col row width height mode xf data s =
      if data.length < (width.toNat * height.toNat + 7) / 8 then
        .next (raiseError .truncatedInput s)
      else
        .next (draw mode (blitPlots P width.toNat height.toNat (srcBitPacked data width.toNat)
          col.toNat row.toNat xf) s) := rfl

/-- BLITS of a payload shorter than its header (R158, 1). -/
theorem blitsWith_short (col row : Byte) (mode : DrawMode) (xf : Transform) {data : List Byte}
    (h : data.length < 4) :
    blitsWith P col row mode xf data s = .next (raiseError .truncatedInput s) := if_pos h

/-- BLITS of a payload that holds its header (R158, 2 and 3). -/
theorem blitsWith_cons (col row : Byte) (mode : DrawMode) (xf : Transform) (ty rv w h : Byte)
    (tl : List Byte) :
    blitsWith P col row mode xf (ty :: rv :: w :: h :: tl) s =
      if ty ≠ 0 ∨ rv ≠ 0 then .next (raiseError .unsupportedFormat s)
      else if tl.length < (w.toNat + 7) / 8 * h.toNat then .next (raiseError .truncatedInput s)
      else
        .next (draw mode (blitPlots P w.toNat h.toNat
          (srcBitSelf (ty :: rv :: w :: h :: tl) w.toNat) col.toNat row.toNat xf) s) := by
  have hlen : ¬(ty :: rv :: w :: h :: tl).length < 4 := by simp
  have hneed : (ty :: rv :: w :: h :: tl).length < needSelf w.toNat h.toNat ↔
      tl.length < (w.toNat + 7) / 8 * h.toNat := by
    simp only [needSelf, stride, ceilDiv_eight, List.length_cons]; omega
  have e0 : payByte (ty :: rv :: w :: h :: tl) 0 = ty := rfl
  have e1 : payByte (ty :: rv :: w :: h :: tl) 1 = rv := rfl
  have e2 : payByte (ty :: rv :: w :: h :: tl) 2 = w := rfl
  have e3 : payByte (ty :: rv :: w :: h :: tl) 3 = h := rfl
  simp only [blitsWith, if_neg hlen, e0, e1, e2, e3, hneed]

/-- A payload of at least four bytes has a bitmap header. -/
theorem exists_bitmapHeader {data : List Byte} (h : ¬data.length < 4) :
    ∃ ty rv w h tl, data = ty :: rv :: w :: h :: tl := by
  match data, h with
  | ty :: rv :: w :: h :: tl, _ => exact ⟨ty, rv, w, h, tl, rfl⟩
  | [], h => exact absurd (by decide) h
  | [_], h => exact absurd (by simp) h
  | [_, _], h => exact absurd (by simp) h
  | [_, _, _], h => exact absurd (by simp) h

/-- What any command does, the same for every state: it ends in one of six ways, always in a next
state, and neither its SetPixel calls nor its checks depend on the state. -/
theorem exec_uniform (i : Instr) :
    (∃ e, ∀ s, exec i s = .next (raiseError e s)) ∨
    (∃ mode ps, drawMode? i = some mode ∧ ∀ s, exec i s = .next (draw mode ps s)) ∨
    (i = .clear ∧ ∀ s, exec i s = .next (complete { s with fb := Memory.cleared })) ∨
    (∃ col bank byte, i = .setb col bank byte ∧ ∀ s, exec i s =
      .next (complete { s with fb := s.fb.write (bankTarget col.toNat bank.toNat) byte })) ∨
    (∃ q : Memory → Byte, ((∃ col row, i = .getpx col row) ∨ (∃ col bank, i = .getb col bank)) ∧
      ∀ s, exec i s = .next (answer (q s.fb) s)) ∨
    (i = .flush ∧
      ∀ s, exec i s = .next (complete { s with out := s.out ++ scanOut params s.fb })) := by
  cases i with
  | clear => exact .inr (.inr (.inl ⟨rfl, fun _ => rfl⟩))
  | setpx col row value mode => exact .inr (.inl ⟨mode, _, rfl, fun _ => rfl⟩)
  | getpx col row =>
    exact .inr (.inr (.inr (.inr (.inl
      ⟨fun m => getPixel m col.toNat row.toNat, .inl ⟨col, row, rfl⟩, fun _ => rfl⟩))))
  | setb col bank byte =>
    exact .inr (.inr (.inr (.inl ⟨col, bank, byte, rfl, fun _ => rfl⟩)))
  | getb col bank =>
    exact .inr (.inr (.inr (.inr (.inl
      ⟨fun m => m.read (bankTarget col.toNat bank.toNat), .inr ⟨col, bank, rfl⟩, fun _ => rfl⟩))))
  | line col0 row0 col1 row1 mode => exact .inr (.inl ⟨mode, _, rfl, fun _ => rfl⟩)
  | frect col0 row0 col1 row1 fill mode => exact .inr (.inl ⟨mode, _, rfl, fun _ => rfl⟩)
  | pchar ch col row mode =>
    by_cases h : InFont ch
    · exact .inr (.inl ⟨mode, _, rfl, fun s => pcharWith_accepted params s h col row mode⟩)
    · exact .inl ⟨_, fun s => pcharWith_rejected params s h col row mode⟩
  | pstr text col row mode =>
    by_cases h : ∀ ch ∈ text, InFont ch
    · exact .inr (.inl ⟨mode, _, rfl, fun s => pstrWith_accepted params s h col row mode⟩)
    · exact .inl ⟨_, fun s => pstrWith_rejected params s h col row mode⟩
  | blitp col row width height mode xf data =>
    by_cases h : data.length < needPacked width.toNat height.toNat
    · exact .inl ⟨.truncatedInput, fun _ => if_pos h⟩
    · exact .inr (.inl ⟨mode, _, rfl, fun _ => if_neg h⟩)
  | blits col row mode xf data =>
    by_cases h1 : data.length < 4
    · exact .inl ⟨.truncatedInput, fun _ => if_pos h1⟩
    by_cases h2 : payByte data 0 ≠ 0 ∨ payByte data 1 ≠ 0
    · exact .inl ⟨.unsupportedFormat, fun _ => (if_neg h1).trans (if_pos h2)⟩
    by_cases h3 : data.length < needSelf (payByte data 2).toNat (payByte data 3).toNat
    · exact .inl ⟨.truncatedInput, fun _ => (if_neg h1).trans ((if_neg h2).trans (if_pos h3))⟩
    · exact .inr (.inl
        ⟨mode, _, rfl, fun _ => (if_neg h1).trans ((if_neg h2).trans (if_neg h3))⟩)
  | flush => exact .inr (.inr (.inr (.inr (.inr ⟨rfl, fun _ => rfl⟩))))

/-- `exec_uniform` at one state. -/
theorem exec_cases (i : Instr) (s : State) :
    (∃ e, exec i s = .next (raiseError e s)) ∨
    (∃ mode ps, drawMode? i = some mode ∧ exec i s = .next (draw mode ps s)) ∨
    (i = .clear ∧ exec i s = .next (complete { s with fb := Memory.cleared })) ∨
    (∃ col bank byte, i = .setb col bank byte ∧ exec i s =
      .next (complete { s with fb := s.fb.write (bankTarget col.toNat bank.toNat) byte })) ∨
    (∃ v, ((∃ col row, i = .getpx col row) ∨ (∃ col bank, i = .getb col bank)) ∧
      exec i s = .next (answer v s)) ∨
    (i = .flush ∧ exec i s = .next (complete { s with out := s.out ++ scanOut params s.fb })) := by
  rcases exec_uniform i with ⟨e, h⟩ | ⟨mode, ps, hm, h⟩ | ⟨hi, h⟩ | ⟨c, b, v, hi, h⟩ |
    ⟨q, hi, h⟩ | ⟨hi, h⟩
  · exact .inl ⟨e, h s⟩
  · exact .inr (.inl ⟨mode, ps, hm, h s⟩)
  · exact .inr (.inr (.inl ⟨hi, h s⟩))
  · exact .inr (.inr (.inr (.inl ⟨c, b, v, hi, h s⟩)))
  · exact .inr (.inr (.inr (.inr (.inl ⟨q s.fb, hi, h s⟩))))
  · exact .inr (.inr (.inr (.inr (.inr ⟨hi, h s⟩))))

/-- The bytes waiting in the stream do not matter to a command. -/
theorem exec_withInput (i : Instr) (s : State) (inp : List Byte) :
    ∃ t, exec i s = .next t ∧ exec i { s with input := inp } = .next { t with input := inp } := by
  rcases exec_uniform i with ⟨e, h⟩ | ⟨mode, ps, -, h⟩ | ⟨-, h⟩ | ⟨c, b, v, -, h⟩ |
    ⟨q, -, h⟩ | ⟨-, h⟩ <;> exact ⟨_, h s, h { s with input := inp }⟩

/-- No command changes the bytes waiting in the stream. -/
theorem exec_input {i : Instr} {s t : State} (h : exec i s = .next t) : t.input = s.input := by
  rcases exec_cases i s with ⟨e, he⟩ | ⟨mode, ps, -, he⟩ | ⟨-, he⟩ | ⟨c, b, v, -, he⟩ |
    ⟨v, -, he⟩ | ⟨-, he⟩ <;>
    · obtain rfl := Host.Outcome.next.inj (he.symm.trans h)
      rfl

end Sys2Proof.Machine
end

