-- ==== Sys2Proof/Laws/PerInstr.lean ====
section
/-! SUPPORT. Facts about every command as syntax, one lemma per constructor. -/

namespace Sys2Proof.Laws.EncodedLength

/-- A packet is eight header bytes and the payload (R60, R63). -/
def Statement (i : Instr) : Prop := (encode i).length = 8 + i.payload.length

theorem clear : Statement .clear := rfl
theorem setpx (col row value : Byte) (mode : DrawMode) : Statement (.setpx col row value mode) := rfl
theorem getpx (col row : Byte) : Statement (.getpx col row) := rfl
theorem setb (col bank byte : Byte) : Statement (.setb col bank byte) := rfl
theorem getb (col bank : Byte) : Statement (.getb col bank) := rfl
theorem line (col0 row0 col1 row1 : Byte) (mode : DrawMode) :
    Statement (.line col0 row0 col1 row1 mode) := rfl
theorem frect (col0 row0 col1 row1 : Byte) (fill : FillMode) (mode : DrawMode) :
    Statement (.frect col0 row0 col1 row1 fill mode) := rfl
theorem pchar (ch col row : Byte) (mode : DrawMode) : Statement (.pchar ch col row mode) := rfl

theorem pstr (text : List Byte) (col row : Byte) (mode : DrawMode) :
    Statement (.pstr text col row mode) := List.length_append
theorem blitp (col row width height : Byte) (mode : DrawMode) (xf : Transform) (data : List Byte) :
    Statement (.blitp col row width height mode xf data) := List.length_append
theorem blits (col row : Byte) (mode : DrawMode) (xf : Transform) (data : List Byte) :
    Statement (.blits col row mode xf data) := List.length_append
theorem flush : Statement .flush := rfl

end Sys2Proof.Laws.EncodedLength
end

