-- ==== Sys2Proof/Laws/Rows.lean ====
section
/-! SUPPORT. The decoder row by row: for each opcode of spec/30_encoding.md R66, which header bytes
are accepted and what command they give. -/

namespace Sys2Proof

variable (h0 h1 h2 h3 h4 h5 h6 h7 : Byte) (pay : List Byte)

theorem and_0xFF (x : Byte) : x &&& 255#8 = x := BitVec.and_allOnes

/-- The transform descriptor in a CTL byte (R62). -/
def ctlXf (ctl : Byte) : Transform :=
  { rot := Rotation.ofCode (ctl.extractLsb' 2 2), mir := ctl.getLsbD 4, inv := ctl.getLsbD 5 }

theorem xfField_headerWord : xfField (headerWord h0 h1 h2 h3 h4 h5 h6 h7) = ctlXf h1 := by
  rw [xfField, rotField_headerWord, mirField_headerWord, invField_headerWord, ctlXf]

theorem decodeCommand_clear :
    decodeCommand (headerWord 1#8 h1 h2 h3 h4 h5 h6 h7) pay =
      if h1 = 0 ∧ h2 = 0 ∧ h3 = 0 ∧ h4 = 0 ∧ h5 = 0 ∧ h6 = 0 ∧ h7 = 0 then
        .ok (.clear)
      else .error .reservedNotZero := by
  rw [decodeCommand_of_row 1#8 h1 h2 h3 h4 h5 h6 h7 pay rfl
    (m0 := 255) (m1 := 255) (m2 := 255) (m3 := 255)
    (m4 := 255) (m5 := 255) (m6 := 255) (m7 := 255) (by decide)
    (p0 := 1#8) (p1 := 0) (p2 := 0) (p3 := 0)
    (p4 := 0) (p5 := 0) (p6 := 0) (p7 := 0) (by decide)]
  simp [operands, and_0xFF]

theorem decodeCommand_setpx :
    decodeCommand (headerWord 2#8 h1 h2 h3 h4 h5 h6 h7) pay =
      if h1 &&& 252#8 = 0 ∧ h5 = 0 ∧ h6 = 0 ∧ h7 = 0 then
        .ok (.setpx h2 h3 h4 (DrawMode.ofCode (h1.extractLsb' 0 2)))
      else .error .reservedNotZero := by
  rw [decodeCommand_of_row 2#8 h1 h2 h3 h4 h5 h6 h7 pay rfl
    (m0 := 255) (m1 := 252) (m2 := 0) (m3 := 0)
    (m4 := 0) (m5 := 255) (m6 := 255) (m7 := 255) (by decide)
    (p0 := 2#8) (p1 := 0) (p2 := 0) (p3 := 0)
    (p4 := 0) (p5 := 0) (p6 := 0) (p7 := 0) (by decide)]
  simp [operands, and_0xFF, aField_headerWord, bField_headerWord, cField_headerWord, modeField_headerWord]

theorem decodeCommand_getpx :
    decodeCommand (headerWord 3#8 h1 h2 h3 h4 h5 h6 h7) pay =
      if h1 = 0 ∧ h4 = 0 ∧ h5 = 0 ∧ h6 = 0 ∧ h7 = 0 then
        .ok (.getpx h2 h3)
      else .error .reservedNotZero := by
  rw [decodeCommand_of_row 3#8 h1 h2 h3 h4 h5 h6 h7 pay rfl
    (m0 := 255) (m1 := 255) (m2 := 0) (m3 := 0)
    (m4 := 255) (m5 := 255) (m6 := 255) (m7 := 255) (by decide)
    (p0 := 3#8) (p1 := 0) (p2 := 0) (p3 := 0)
    (p4 := 0) (p5 := 0) (p6 := 0) (p7 := 0) (by decide)]
  simp [operands, and_0xFF, aField_headerWord, bField_headerWord]

theorem decodeCommand_setb :
    decodeCommand (headerWord 4#8 h1 h2 h3 h4 h5 h6 h7) pay =
      if h1 = 0 ∧ h5 = 0 ∧ h6 = 0 ∧ h7 = 0 then
        .ok (.setb h2 h3 h4)
      else .error .reservedNotZero := by
  rw [decodeCommand_of_row 4#8 h1 h2 h3 h4 h5 h6 h7 pay rfl
    (m0 := 255) (m1 := 255) (m2 := 0) (m3 := 0)
    (m4 := 0) (m5 := 255) (m6 := 255) (m7 := 255) (by decide)
    (p0 := 4#8) (p1 := 0) (p2 := 0) (p3 := 0)
    (p4 := 0) (p5 := 0) (p6 := 0) (p7 := 0) (by decide)]
  simp [operands, and_0xFF, aField_headerWord, bField_headerWord, cField_headerWord]

theorem decodeCommand_getb :
    decodeCommand (headerWord 5#8 h1 h2 h3 h4 h5 h6 h7) pay =
      if h1 = 0 ∧ h4 = 0 ∧ h5 = 0 ∧ h6 = 0 ∧ h7 = 0 then
        .ok (.getb h2 h3)
      else .error .reservedNotZero := by
  rw [decodeCommand_of_row 5#8 h1 h2 h3 h4 h5 h6 h7 pay rfl
    (m0 := 255) (m1 := 255) (m2 := 0) (m3 := 0)
    (m4 := 255) (m5 := 255) (m6 := 255) (m7 := 255) (by decide)
    (p0 := 5#8) (p1 := 0) (p2 := 0) (p3 := 0)
    (p4 := 0) (p5 := 0) (p6 := 0) (p7 := 0) (by decide)]
  simp [operands, and_0xFF, aField_headerWord, bField_headerWord]

theorem decodeCommand_line :
    decodeCommand (headerWord 6#8 h1 h2 h3 h4 h5 h6 h7) pay =
      if h1 &&& 252#8 = 0 ∧ h6 = 0 ∧ h7 = 0 then
        .ok (.line h2 h3 h4 h5 (DrawMode.ofCode (h1.extractLsb' 0 2)))
      else .error .reservedNotZero := by
  rw [decodeCommand_of_row 6#8 h1 h2 h3 h4 h5 h6 h7 pay rfl
    (m0 := 255) (m1 := 252) (m2 := 0) (m3 := 0)
    (m4 := 0) (m5 := 0) (m6 := 255) (m7 := 255) (by decide)
    (p0 := 6#8) (p1 := 0) (p2 := 0) (p3 := 0)
    (p4 := 0) (p5 := 0) (p6 := 0) (p7 := 0) (by decide)]
  simp [operands, and_0xFF, aField_headerWord, bField_headerWord, cField_headerWord, dField_headerWord, modeField_headerWord]

theorem decodeCommand_frect :
    decodeCommand (headerWord 7#8 h1 h2 h3 h4 h5 h6 h7) pay =
      if h1 &&& 224#8 = 0 ∧ h6 = 0 ∧ h7 = 0 then
        (match FillMode.ofCode (h1.extractLsb' 2 3) with
          | some fill => .ok (.frect h2 h3 h4 h5 fill (DrawMode.ofCode (h1.extractLsb' 0 2)))
          | none => .error .reservedFill)
      else .error .reservedNotZero := by
  rw [decodeCommand_of_row 7#8 h1 h2 h3 h4 h5 h6 h7 pay rfl
    (m0 := 255) (m1 := 224) (m2 := 0) (m3 := 0)
    (m4 := 0) (m5 := 0) (m6 := 255) (m7 := 255) (by decide)
    (p0 := 7#8) (p1 := 0) (p2 := 0) (p3 := 0)
    (p4 := 0) (p5 := 0) (p6 := 0) (p7 := 0) (by decide)]
  cases hf : FillMode.ofCode (h1.extractLsb' 2 3) <;>
    simp [operands, and_0xFF, aField_headerWord, bField_headerWord, cField_headerWord, dField_headerWord, modeField_headerWord, fillField_headerWord,
      hf]

theorem decodeCommand_pchar :
    decodeCommand (headerWord 8#8 h1 h2 h3 h4 h5 h6 h7) pay =
      if h1 &&& 252#8 = 0 ∧ h5 = 0 ∧ h6 = 0 ∧ h7 = 0 then
        .ok (.pchar h4 h2 h3 (DrawMode.ofCode (h1.extractLsb' 0 2)))
      else .error .reservedNotZero := by
  rw [decodeCommand_of_row 8#8 h1 h2 h3 h4 h5 h6 h7 pay rfl
    (m0 := 255) (m1 := 252) (m2 := 0) (m3 := 0)
    (m4 := 0) (m5 := 255) (m6 := 255) (m7 := 255) (by decide)
    (p0 := 8#8) (p1 := 0) (p2 := 0) (p3 := 0)
    (p4 := 0) (p5 := 0) (p6 := 0) (p7 := 0) (by decide)]
  simp [operands, and_0xFF, aField_headerWord, bField_headerWord, cField_headerWord, modeField_headerWord]

theorem decodeCommand_pstr :
    decodeCommand (headerWord 9#8 h1 h2 h3 h4 h5 h6 h7) pay =
      if h1 &&& 252#8 = 0 ∧ h4 = 0 ∧ h5 = 0 then
        .ok (.pstr pay h2 h3 (DrawMode.ofCode (h1.extractLsb' 0 2)))
      else .error .reservedNotZero := by
  rw [decodeCommand_of_row 9#8 h1 h2 h3 h4 h5 h6 h7 pay rfl
    (m0 := 255) (m1 := 252) (m2 := 0) (m3 := 0)
    (m4 := 255) (m5 := 255) (m6 := 0) (m7 := 0) (by decide)
    (p0 := 9#8) (p1 := 0) (p2 := 0) (p3 := 0)
    (p4 := 0) (p5 := 0) (p6 := 0) (p7 := 0) (by decide)]
  simp [operands, and_0xFF, aField_headerWord, bField_headerWord, modeField_headerWord]

theorem decodeCommand_blitp :
    decodeCommand (headerWord 10#8 h1 h2 h3 h4 h5 h6 h7) pay =
      if h1 &&& 192#8 = 0 then
        .ok (.blitp h2 h3 h4 h5 (DrawMode.ofCode (h1.extractLsb' 0 2)) (ctlXf h1) pay)
      else .error .reservedNotZero := by
  rw [decodeCommand_of_row 10#8 h1 h2 h3 h4 h5 h6 h7 pay rfl
    (m0 := 255) (m1 := 192) (m2 := 0) (m3 := 0)
    (m4 := 0) (m5 := 0) (m6 := 0) (m7 := 0) (by decide)
    (p0 := 10#8) (p1 := 0) (p2 := 0) (p3 := 0)
    (p4 := 0) (p5 := 0) (p6 := 0) (p7 := 0) (by decide)]
  simp [operands, and_0xFF, aField_headerWord, bField_headerWord, cField_headerWord, dField_headerWord, modeField_headerWord, xfField_headerWord]

theorem decodeCommand_blits :
    decodeCommand (headerWord 11#8 h1 h2 h3 h4 h5 h6 h7) pay =
      if h1 &&& 192#8 = 0 ∧ h4 = 0 ∧ h5 = 0 then
        .ok (.blits h2 h3 (DrawMode.ofCode (h1.extractLsb' 0 2)) (ctlXf h1) pay)
      else .error .reservedNotZero := by
  rw [decodeCommand_of_row 11#8 h1 h2 h3 h4 h5 h6 h7 pay rfl
    (m0 := 255) (m1 := 192) (m2 := 0) (m3 := 0)
    (m4 := 255) (m5 := 255) (m6 := 0) (m7 := 0) (by decide)
    (p0 := 11#8) (p1 := 0) (p2 := 0) (p3 := 0)
    (p4 := 0) (p5 := 0) (p6 := 0) (p7 := 0) (by decide)]
  simp [operands, and_0xFF, aField_headerWord, bField_headerWord, modeField_headerWord, xfField_headerWord]

theorem decodeCommand_flush :
    decodeCommand (headerWord 12#8 h1 h2 h3 h4 h5 h6 h7) pay =
      if h1 = 0 ∧ h2 = 0 ∧ h3 = 0 ∧ h4 = 0 ∧ h5 = 0 ∧ h6 = 0 ∧ h7 = 0 then
        .ok (.flush)
      else .error .reservedNotZero := by
  rw [decodeCommand_of_row 12#8 h1 h2 h3 h4 h5 h6 h7 pay rfl
    (m0 := 255) (m1 := 255) (m2 := 255) (m3 := 255)
    (m4 := 255) (m5 := 255) (m6 := 255) (m7 := 255) (by decide)
    (p0 := 12#8) (p1 := 0) (p2 := 0) (p3 := 0)
    (p4 := 0) (p5 := 0) (p6 := 0) (p7 := 0) (by decide)]
  simp [operands, and_0xFF]

/-- OP 0x00 and 0x0D..0xFF have no row (R70 a). -/
theorem decodeCommand_unassigned (h : h0 = 0#8 ∨ 12 < h0.toNat) :
    decodeCommand (headerWord h0 h1 h2 h3 h4 h5 h6 h7) pay = .error .unassignedOp := by
  have : opRows.find? (fun r => r.code == h0) = none := by
    rw [List.find?_eq_none]
    intro row hrow heq
    have hcode : row.code = h0 := by simpa using heq
    have hall : ∀ r ∈ opRows, 1 ≤ r.code.toNat ∧ r.code.toNat ≤ 12 := by decide
    have := hall row hrow
    rw [hcode] at this
    rcases h with h | h
    · subst h; simp at this
    · omega
  simp only [decodeCommand, opField_headerWord, this]

end Sys2Proof
end

