-- ==== Sys2Proof/Machine/Asm.lean ====
section
/-! DEFINITION. The assembler text of a command (spec/30_encoding.md R74): the mnemonic and its
operands in the order of the source's signatures. A packet has this one textual form here: numbers
decimal, payloads as a brace list of hexadecimal bytes. -/

namespace Sys2Proof

/-- A number of 0..255 in decimal (R74). -/
def asmNum (v : Byte) : String := toString v.toNat

/-- The name of a draw mode (R74). -/
def DrawMode.asm : DrawMode → String
  | .set => "set"
  | .or => "or"
  | .xor => "xor"
  | .clear => "clear"

/-- The name of a fill mode (R74). -/
def FillMode.asm : FillMode → String
  | .solid => "solid"
  | .none => "none"
  | .hatch => "hatch"
  | .checkerboard => "checker"
  | .horizontalStripes => "hstripe"
  | .verticalStripes => "vstripe"

/-- The name of a rotation (R74). -/
def Rotation.asm : Rotation → String
  | .r0 => "r0"
  | .r90 => "r90"
  | .r180 => "r180"
  | .r270 => "r270"

/-- The name of a transform: the rotation, then `m`, then `i` (R74). -/
def Transform.asm (xf : Transform) : String :=
  xf.rot.asm ++ (if xf.mir then "m" else "") ++ (if xf.inv then "i" else "")

/-- A hexadecimal digit, upper case. -/
def hexDigit (n : Nat) : Char := Char.ofNat (if n < 10 then 48 + n else 55 + n)

/-- A byte as two hexadecimal digits. -/
def hexByte (v : Byte) : String :=
  String.ofList [hexDigit (v.toNat / 16), hexDigit (v.toNat % 16)]

/-- A payload as a brace list of hexadecimal bytes (R74). -/
def asmBytes (pay : List Byte) : String :=
  String.singleton (Char.ofNat 0x7B) ++ " ".intercalate (pay.map hexByte) ++
    String.singleton (Char.ofNat 0x7D)

/-- A mnemonic and its operands separated by commas (R74). -/
def asmLine (mnemonic : String) (operands : List String) : String :=
  if operands.isEmpty then mnemonic else mnemonic ++ " " ++ ", ".intercalate operands

/-- The assembler text of a command (R74). -/
def Instr.asm : Instr → String
  | .clear => asmLine "CLEAR" []
  | .setpx col row value mode =>
      asmLine "SETPX" [asmNum col, asmNum row, asmNum value, mode.asm]
  | .getpx col row => asmLine "GETPX" [asmNum col, asmNum row]
  | .setb col bank byte => asmLine "SETB" [asmNum col, asmNum bank, asmNum byte]
  | .getb col bank => asmLine "GETB" [asmNum col, asmNum bank]
  | .line col0 row0 col1 row1 mode =>
      asmLine "LINE" [asmNum col0, asmNum row0, asmNum col1, asmNum row1, mode.asm]
  | .frect col0 row0 col1 row1 fill mode =>
      asmLine "FRECT" [asmNum col0, asmNum row0, asmNum col1, asmNum row1, fill.asm, mode.asm]
  | .pchar ch col row mode => asmLine "PCHAR" [asmNum ch, asmNum col, asmNum row, mode.asm]
  | .pstr text col row mode => asmLine "PSTR" [asmBytes text, asmNum col, asmNum row, mode.asm]
  | .blitp col row width height mode xf data =>
      asmLine "BLITP"
        [asmNum col, asmNum row, asmNum width, asmNum height, mode.asm, xf.asm, asmBytes data]
  | .blits col row mode xf data =>
      asmLine "BLITS" [asmNum col, asmNum row, mode.asm, xf.asm, asmBytes data]
  | .flush => asmLine "FLUSH" []

end Sys2Proof
end

