-- ==== Sys2Proof/Tests/Slice0.lean ====
section
/-! SUPPORT. Tests and witnesses. Expected values come from spec/95_test_vectors.md (named V.., T..)
and from the encodings of spec/30_encoding.md written out by hand; none is the model's own answer. -/

open Sys2Proof Sys2Proof.Machine

namespace Sys2Proof.Tests

/-! ## Helpers -/

/-- A unit with a cleared FB. -/
def blank : State :=
  { fb := Memory.cleared, status := 0x00, result := 0x00, out := [], input := [], resets := 0 }

/-- The same unit with a packet stream. -/
def blankWith (bytes : List Byte) : State := { blank with input := bytes }

/-- The next state of an outcome, if it is one. -/
def next? (o : Host.Outcome State Fault Refusal) : Option State :=
  match o with
  | .next t => some t
  | .fault _ => none
  | .refused _ => none

/-- The fault of an outcome, if it is one. -/
def fault? (o : Host.Outcome State Fault Refusal) : Option Fault :=
  match o with
  | .next _ => none
  | .fault e => some e
  | .refused _ => none

/-- The nonzero bytes of FB after a command, with the status. -/
def drawn? (o : Host.Outcome State Fault Refusal) : Option (List Host.Cell × Byte) :=
  (next? o).map (fun t => (t.fb.filter (fun c => c.2 ≠ 0), t.status))

/-- One byte of FB after a command. -/
def byteAfter (a : Nat) (o : Host.Outcome State Fault Refusal) : Option Byte :=
  (next? o).map (fun t => t.fb.read a)

/-- RESULT after a command. -/
def resultAfter (o : Host.Outcome State Fault Refusal) : Option Byte :=
  (next? o).map (fun t => t.result)

/-- A font whose every glyph is the candidate 'A' of spec/95_test_vectors.md section 2.4; the spec
gives no font, so no test uses the machine's own. -/
def glyphA : Nat → Nat → Byte := fun _ i => [0x7E, 0x11, 0x11, 0x11, 0x7E].getD i 0x00

/-- The machine's parameters with that font and the candidate reset sequence. -/
def withA : Config.Params := { params with font := glyphA, cursorResetSeq := [0x80, 0x40] }

/-- The transform with no effect. -/
def plain : Transform := ⟨.r0, false, false⟩

/-! ## WellFormed refuses ill-formed terms -/

theorem test_wellFormed_pstr_too_long (text : List Byte) (h : text.length = 65536) :
    WellFormed (.pstr text 0 0 .set) = false := by simp [WellFormed, h]

theorem test_wellFormed_pstr_longest (text : List Byte) (h : text.length = 65535) :
    WellFormed (.pstr text 255 255 .clear) = true := by simp [WellFormed, h]

theorem test_wellFormed_blitp_too_long (data : List Byte) (h : data.length = 65536) :
    WellFormed (.blitp 0 0 1 1 .set plain data) = false := by simp [WellFormed, h]

theorem test_wellFormed_blits_too_long (data : List Byte) (h : data.length = 65536) :
    WellFormed (.blits 0 0 .set plain data) = false := by simp [WellFormed, h]

theorem test_wellFormed_ill_formed_exists :
    WellFormed (.pstr (List.replicate 65536 0x41) 0 0 .set) = false :=
  test_wellFormed_pstr_too_long _ List.length_replicate

/-! ## Decoding, one packet of each command written out from R61, R62, R64 -/

theorem test_decode_clear : decode [0x01, 0, 0, 0, 0, 0, 0, 0] = .command .clear [] := by decide
theorem test_decode_setpx :
    decode [0x02, 0x03, 0x05, 0x0A, 0x07, 0, 0, 0] = .command (.setpx 5 10 7 .clear) [] := by decide
theorem test_decode_getpx :
    decode [0x03, 0x00, 0xA7, 0x5F, 0, 0, 0, 0] = .command (.getpx 167 95) [] := by decide
theorem test_decode_setb :
    decode [0x04, 0x00, 0x00, 0x07, 0x5A, 0, 0, 0] = .command (.setb 0 7 0x5A) [] := by decide
theorem test_decode_getb :
    decode [0x05, 0x00, 0x53, 0x05, 0, 0, 0, 0] = .command (.getb 83 5) [] := by decide
theorem test_decode_line :
    decode [0x06, 0x01, 0x50, 0x01, 0x5A, 0x02, 0, 0] = .command (.line 80 1 90 2 .or) [] := by
  decide
theorem test_decode_frect :
    decode [0x07, 0x16, 0x52, 0x2E, 0x55, 0x32, 0, 0] =
      .command (.frect 82 46 85 50 .verticalStripes .xor) [] := by decide
theorem test_decode_pchar :
    decode [0x08, 0x01, 0x52, 0x2C, 0x41, 0, 0, 0] = .command (.pchar 0x41 82 44 .or) [] := by decide
theorem test_decode_pstr :
    decode [0x09, 0x00, 0x4E, 0x01, 0, 0, 0, 0x02, 0x41, 0x42, 0xFF] =
      .command (.pstr [0x41, 0x42] 78 1 .set) [0xFF] := by decide
theorem test_decode_blitp :
    decode [0x0A, 0x2B, 0x0A, 0x14, 0x03, 0x02, 0x00, 0x01, 0xA8] =
      .command (.blitp 10 20 3 2 .clear ⟨.r180, false, true⟩ [0xA8]) [] := by decide
theorem test_decode_blits :
    decode [0x0B, 0x1C, 0x50, 0x2C, 0, 0, 0, 0x04, 0x00, 0x00, 0x08, 0x02] =
      .command (.blits 80 44 .set ⟨.r270, true, false⟩ [0x00, 0x00, 0x08, 0x02]) [] := by decide
theorem test_decode_flush : decode [0x0C, 0, 0, 0, 0, 0, 0, 0] = .command .flush [] := by decide

/-- V120 to V138: why each header is ILLEGAL. -/
theorem test_decode_illegal :
    decode [0x00, 0, 0, 0, 0, 0, 0, 0] = .illegal .unassignedOp [] ∧
    decode [0x0D, 0, 0, 0, 0, 0, 0, 0] = .illegal .unassignedOp [] ∧
    decode [0xFF, 0, 0, 0, 0, 0, 0, 0] = .illegal .unassignedOp [] ∧
    decode [0x01, 0, 0, 0, 0, 0, 0, 1, 0] = .illegal .reservedNotZero [] ∧
    decode [0x02, 4, 0, 0, 1, 0, 0, 0] = .illegal .reservedNotZero [] ∧
    decode [0x03, 1, 0, 0, 0, 0, 0, 0] = .illegal .reservedNotZero [] ∧
    decode [0x04, 0, 0, 0, 0, 1, 0, 0] = .illegal .reservedNotZero [] ∧
    decode [0x07, 0x18, 0, 0, 1, 1, 0, 0] = .illegal .reservedFill [] ∧
    decode [0x07, 0x1C, 0, 0, 1, 1, 0, 0] = .illegal .reservedFill [] ∧
    decode [0x07, 0x20, 0, 0, 1, 1, 0, 0] = .illegal .reservedNotZero [] ∧
    decode [0x08, 4, 0, 0, 0x41, 0, 0, 0] = .illegal .reservedNotZero [] ∧
    decode [0x0A, 0x40, 0, 0, 0, 0, 0, 0] = .illegal .reservedNotZero [] ∧
    decode [0x0B, 0, 0, 0, 1, 0, 0, 1, 0] = .illegal .reservedNotZero [] ∧
    decode [0x0C, 0, 1, 0, 0, 0, 0, 0] = .illegal .reservedNotZero [] := by decide +kernel

/-- No header word matches two rows of R66: two rows already differ in OP. -/
theorem test_rows_disjoint :
    opRows.Pairwise (fun a b =>
      (a.pattern &&& (a.mask &&& b.mask)) ≠ (b.pattern &&& (a.mask &&& b.mask))) := by decide +kernel

/-- The host's numbering: bits 63..56 are OP, and the payload follows LEN. -/
theorem test_decodeTableWord :
    decodeTableWord 64 0x0202050A01000000 = some (.setpx 5 10 1 .xor) ∧
    decodeTableWord 64 0x0900000800000002 = some (.pstr [0x00, 0x00] 0 8 .set) ∧
    decodeTableWord 64 0x071C000001010000 = none := by decide +kernel

/-- The next step after reset runs exactly the given packet, and consumes it. -/
theorem test_withFetchWord :
    (next? (step (State.reset.withFetchWord 64 0x0100000000000000))).map
      (fun t => (t.fb.read 503, t.status, t.input)) = some (0x00, 0x00, []) := by decide +kernel

/-- R74's example lines. -/
theorem test_asm :
    Instr.asm (.setpx 5 10 1 .xor) = "SETPX 5, 10, 1, xor" ∧
    Instr.asm (.frect 0 0 83 48 .checkerboard .set) = "FRECT 0, 0, 83, 48, checker, set" ∧
    Instr.asm .flush = "FLUSH" := by decide +kernel

/-! ## One step of each command -/

/-- V11. -/
theorem test_clear : (drawn? (exec .clear { blank with fb := [(0, 0xFF)] })) = some ([], 0x00) := by
  decide +kernel

/-- V2: both coordinates wrap. -/
theorem test_setpx_wraps :
    drawn? (exec (.setpx 255 255 1 .set) blank) = some ([(87, 0x80)], 0x00) := by decide +kernel
/-- V4: clear mode on a byte of ones. -/
theorem test_setpx_clear :
    byteAfter 89 (exec (.setpx 5 10 7 .clear) { blank with fb := Memory.cleared.write 89 0xFF }) =
      some 0xFB := by decide +kernel

/-- V10: the bit stays in place. -/
theorem test_getpx :
    resultAfter (exec (.getpx 84 58) { blank with fb := Memory.cleared.write 84 0x04 }) =
      some 0x04 := by decide +kernel
theorem test_getpx_clear :
    resultAfter (exec (.getpx 0 9) { blank with fb := Memory.cleared.write 84 0x04 }) =
      some 0x00 := by decide +kernel

/-- V8: bank 7 is bank 1. -/
theorem test_setb_wraps :
    drawn? (exec (.setb 0 7 0x5A) blank) = some ([(84, 0x5A)], 0x00) := by decide +kernel

/-- Program 1, packet 8. -/
theorem test_getb_wraps :
    resultAfter (exec (.getb 167 11) { blank with fb := Memory.cleared.write 503 0x80 }) =
      some 0x80 := by decide +kernel

/-- V31. -/
theorem test_line :
    drawn? (exec (.line 0 0 5 2 .set) blank) =
      some ([(0, 1), (1, 1), (2, 2), (3, 2), (4, 4), (5, 4)], 0x00) := by decide +kernel
/-- V22, V23: the cells of a line and of its reverse, for both values of LINE_STEP_ON_ZERO. -/
theorem test_line_ties :
    linePoints false 0 0 2 1 = [(0, 0), (1, 0), (2, 1)] ∧
    linePoints true 0 0 2 1 = [(0, 0), (1, 1), (2, 1)] ∧
    linePoints false 2 1 0 0 = [(2, 1), (1, 1), (0, 0)] ∧
    linePoints true 2 1 0 0 = [(2, 1), (1, 0), (0, 0)] := by decide +kernel

/-- V51: wraps on both axes, the row bound is exclusive. -/
theorem test_frect_wraps :
    drawn? (exec (.frect 82 46 85 50 .solid .set) blank) =
      some ([(0, 3), (1, 3), (82, 3), (83, 3), (420, 0xC0), (421, 0xC0), (502, 0xC0), (503, 0xC0)],
        0x00) := by decide +kernel
/-- V42: hatch. -/
theorem test_frect_hatch :
    drawn? (exec (.frect 0 0 5 6 .hatch .set) blank) =
      some ([(0, 0x09), (1, 0x24), (2, 0x12), (3, 0x09), (4, 0x24), (5, 0x12)], 0x00) := by
  decide +kernel

/-- V62, with the candidate 'A'. -/
theorem test_pchar_wraps :
    drawn? (pcharWith withA 0x41 82 44 .or blank) =
      some ([(0, 1), (1, 1), (2, 7), (82, 7), (83, 1), (420, 0x10), (421, 0x10), (422, 0xE0),
        (502, 0xE0), (503, 0x10)], 0x00) := by decide +kernel
/-- V66: BAD_CHAR at both edges. -/
theorem test_pchar_bad :
    drawn? (exec (.pchar 0x1F 0 0 .set) blank) = some ([], 0x02) ∧
    drawn? (exec (.pchar 0x7F 0 0 .set) blank) = some ([], 0x02) := by decide +kernel

/-- V70: the second character does not fit. -/
theorem test_pstr_truncates :
    drawn? (pstrWith withA [0x41, 0x42] 78 0 .set blank) =
      some ([(78, 0x7E), (79, 0x11), (80, 0x11), (81, 0x11), (82, 0x7E)], 0x00) := by decide +kernel
/-- V73: a bad character that would not be drawn still fails. -/
theorem test_pstr_bad :
    drawn? (exec (.pstr (List.replicate 15 0x41 ++ [0x00]) 0 0 .set) blank) = some ([], 0x02) := by
  decide +kernel

/-- V89. -/
theorem test_blitp_transform :
    drawn? (exec (.blitp 10 20 3 2 .xor ⟨.r90, true, true⟩ [0xA8]) blank) =
      some ([(178, 0x50), (179, 0x20)], 0x00) := by decide +kernel
/-- V86, image S2, and V90. -/
theorem test_blitp_rotate_and_short :
    drawn? (exec (.blitp 0 0 3 2 .set ⟨.r270, false, false⟩ [0xC4]) blank) =
      some ([(0, 6), (1, 1)], 0x00) ∧
    drawn? (exec (.blitp 0 0 3 3 .set plain [0xFF]) blank) = some ([], 0x04) := by decide +kernel

/-- V104. -/
theorem test_blits :
    drawn? (exec (.blits 80 44 .set plain [0x00, 0x00, 0x08, 0x02, 0xFF, 0x81]) blank) =
      some ([(420, 0x10), (421, 0x10), (422, 0x10), (423, 0x30), (500, 0x30), (501, 0x10),
        (502, 0x10), (503, 0x10)], 0x00) := by decide +kernel
/-- V95 to V98: the order of the checks. -/
theorem test_blits_errors :
    drawn? (exec (.blits 0 0 .set plain [0x01, 0x00, 0x08]) blank) = some ([], 0x04) ∧
    drawn? (exec (.blits 0 0 .set plain [0x01, 0x00, 0x08, 0x01]) blank) = some ([], 0x03) ∧
    drawn? (exec (.blits 0 0 .set plain [0x00, 0x00, 0x08, 0x01]) blank) = some ([], 0x04) ∧
    drawn? (exec (.blits 0 0 .set plain [0x00, 0x01, 0x08, 0x01, 0xB0]) blank) =
      some ([], 0x03) := by decide +kernel

/-- V110, with the candidate reset sequence. -/
theorem test_flush :
    (next? (flushWith withA { blank with fb := Memory.cleared.write 0 0x81 })).map
      (fun t => (t.out.take 4, t.out.length)) =
      some ([⟨.cmd, 0x80⟩, ⟨.cmd, 0x40⟩, ⟨.data, 0x81⟩, ⟨.data, 0x00⟩], 506) := by decide +kernel
/-- V111. -/
theorem test_flush_order :
    (next? (flushWith withA { blank with fb := (Memory.cleared.write 503 0x80).write 84 0x11 })).map
      (fun t => (t.out[2 + 84]?, t.out[2 + 503]?)) =
      some (some ⟨.data, 0x11⟩, some ⟨.data, 0x80⟩) := by decide +kernel

/-- Program 5, packet 2: an unassigned OP with two payload bytes, and what follows it. -/
theorem test_step_illegal :
    (next? (step (blankWith [0x0D, 0, 0, 0, 0, 0, 0, 2, 0x01, 0x00, 0x02]))).map
      (fun t => (t.status, t.input)) = some (0x01, [0x02]) := by decide +kernel

/-! ## Witnesses: each statement's hypotheses are met together -/

/-- FB with two writes that undo each other is the same data as FB without them. -/
theorem witness_FramebufferIsCanonical :
    Memory.cleared.wf = true ∧ ((Memory.cleared.write 503 1).write 503 0).wf = true ∧
    ∀ a, a < 504 → Memory.cleared.read a = ((Memory.cleared.write 503 1).write 503 0).read a := by
  refine ⟨Memory.wf_cleared, Memory.wf_write (Memory.wf_write Memory.wf_cleared (by decide) _)
    (by decide) _, fun a ha => ?_⟩
  rw [Memory.read_cleared ha, Memory.read_write, Memory.read_write, Memory.read_cleared ha]
  split_ifs <;> rfl

theorem witness_DecodeOfEncode :
    WellFormed (.pstr (List.replicate 65535 0x41) 255 255 .clear) = true :=
  test_wellFormed_pstr_longest _ List.length_replicate

theorem witness_EncodeOfDecode :
    decode [0x0B, 0x3F, 0xFF, 0xFF, 0, 0, 0, 1, 0xAA, 0xBB] =
      .command (.blits 255 255 .clear ⟨.r270, true, true⟩ [0xAA]) [0xBB] := by decide

/-- A whole packet of exactly its length, a packet one byte short, a stream of one byte and one of
seven, and an empty stream. -/
theorem witness_PacketFraming :
    ((blankWith [0x09, 0, 0, 0, 0, 0, 0x00, 0x02, 0x48, 0x69]).input =
        0x09 :: 0 :: 0 :: 0 :: 0 :: 0 :: 0x00 :: 0x02 :: [0x48, 0x69] ∧
      256 * (0x00 : Byte).toNat + (0x02 : Byte).toNat ≤ ([0x48, 0x69] : List Byte).length) ∧
    ((blankWith [0x09, 0, 0, 0, 0, 0, 0x00, 0x02, 0x48]).input =
        0x09 :: 0 :: 0 :: 0 :: 0 :: 0 :: 0x00 :: 0x02 :: [0x48] ∧
      ([0x48] : List Byte).length < 256 * (0x00 : Byte).toNat + (0x02 : Byte).toNat) ∧
    (0 < (blankWith [0x01]).input.length ∧ (blankWith [0x01]).input.length < 8) ∧
    (0 < (blankWith [0, 0, 0, 0, 0, 0, 0]).input.length ∧
      (blankWith [0, 0, 0, 0, 0, 0, 0]).input.length < 8) ∧
    blank.input = [] := by decide

/-- What the stops of that statement look like. -/
theorem witness_PacketFraming_stops :
    fault? (step (blankWith [0x09, 0, 0, 0, 0, 0, 0x00, 0x02, 0x48])) = some .incompletePacket ∧
    fault? (step blank) = some .runEnded := by decide +kernel

theorem witness_StepRunsDecodedInstruction :
    decode (blankWith [0x0C, 0, 0, 0, 0, 0, 0, 0, 0x0C]).input = .command .flush [0x0C] := by decide

/-- A legal and an illegal header: FILL 5, and FILL 6. -/
theorem witness_IllegalHeaders :
    (blankWith [0x07, 0x17, 0, 0, 1, 1, 0, 0]).input = 0x07 :: 0x17 :: 0 :: 0 :: 1 :: 1 :: 0 :: 0 :: [] ∧
    256 * (0 : Byte).toNat + (0 : Byte).toNat ≤ ([] : List Byte).length ∧
    LegalHeader 0x07 0x17 0 0 1 1 (256 * (0 : Byte).toNat + (0 : Byte).toNat) ∧
    (blankWith [0x07, 0x18, 0, 0, 1, 1, 0, 0]).input = 0x07 :: 0x18 :: 0 :: 0 :: 1 :: 1 :: 0 :: 0 :: [] ∧
    ¬LegalHeader 0x07 0x18 0 0 1 1 (256 * (0 : Byte).toNat + (0 : Byte).toNat) := by
  refine ⟨rfl, by decide, ?_, rfl, ?_⟩ <;> simp [LegalHeader]

theorem witness_ProgramRunsInOrder :
    (∀ i ∈ [Instr.clear, .pstr [0x41] 0 0 .set, .flush], WellFormed i = true) ∧
    (blankWith (programBytes [Instr.clear, .pstr [0x41] 0 0 .set, .flush])).input =
      programBytes [Instr.clear, .pstr [0x41] 0 0 .set, .flush] := by decide

/-- A program whose every command is accepted, and one with a bad character. -/
theorem witness_CleanRunsAreAcceptedPrograms :
    (∀ i ∈ [Instr.clear, .pchar 0x7E 0 0 .or], WellFormed i = true ∧ Accepted i) ∧
    (∀ i ∈ [Instr.clear, .pchar 0x7F 0 0 .or], WellFormed i = true) ∧
    (blankWith (programBytes [Instr.clear, .pchar 0x7F 0 0 .or])).input =
      programBytes [Instr.clear, .pchar 0x7F 0 0 .or] ∧
    codes 2 (blankWith (programBytes [Instr.clear, .pchar 0x7F 0 0 .or])) = [0x00, 0x02] := by
  refine ⟨?_, by decide, rfl, by decide +kernel⟩
  rintro i hi
  rcases List.mem_cons.1 hi with rfl | hi
  · exact ⟨rfl, trivial⟩
  · obtain rfl := List.mem_singleton.1 hi
    exact ⟨rfl, (by decide : InFont 0x7E)⟩

/-- From a state that meets the invariant, a step that succeeds; and one that reports an error. -/
theorem witness_StepKeepsInvariant :
    (MachineInv blank ∧ MachineInv (blankWith [0x04, 0, 83, 5, 0x80, 0, 0, 0])) ∧
    (next? (step (blankWith [0x04, 0, 83, 5, 0x80, 0, 0, 0]))).map (fun t => t.fb.read 503) =
      some 0x80 ∧
    (next? (step (blankWith [0x08, 0, 0, 0, 0x7F, 0, 0, 0]))).map (fun t => t.status) =
      some 0x02 :=
  ⟨⟨⟨Memory.wf_cleared, by decide⟩, ⟨Memory.wf_cleared, by decide⟩⟩, by decide +kernel,
    by decide +kernel⟩

theorem witness_StatusHoldsACode :
    (next? (step (blankWith [0x0D, 0, 0, 0, 0, 0, 0, 0]))).map (fun t => t.status) = some 0x01 := by
  decide +kernel

/-- A command of each of the two kinds `ErrorsAreAllOrNothing` distinguishes. -/
theorem witness_ErrorsAreAllOrNothing :
    Accepted (.pchar 0x20 0 0 .set) ∧ ¬Accepted (.pchar 0x1F 0 0 .set) := by
  simp only [Accepted]; decide

theorem witness_OutcomeCodes :
    ((∀ ch col row mode, Instr.flush ≠ .pchar ch col row mode) ∧
      (∀ text col row mode, Instr.flush ≠ .pstr text col row mode) ∧
      (∀ col row w h mode xf data, Instr.flush ≠ .blitp col row w h mode xf data) ∧
      (∀ col row mode xf data, Instr.flush ≠ .blits col row mode xf data)) ∧
    (∀ ch ∈ ([0x20, 0x7E] : List Byte), InFont ch) ∧
    (∃ ch ∈ ([0x20, 0x7F] : List Byte), ¬InFont ch) ∧
    ([0x00, 0x00, 0x00] : List Byte).length < 4 := by
  refine ⟨⟨?_, ?_, ?_, ?_⟩, by decide, by decide, by decide⟩ <;> intros <;> exact Instr.noConfusion

/-- A command that is no query, and an illegal header. -/
theorem witness_ResultRegister :
    (next? (exec (.setb 0 0 1) blank)).map (fun t => t.result) = some 0x00 ∧
    (∀ col row, Instr.setb 0 0 1 ≠ .getpx col row) ∧ (∀ col bank, Instr.setb 0 0 1 ≠ .getb col bank) ∧
    decode (blankWith [0x00, 0, 0, 0, 0, 0, 0, 0]).input = .illegal .unassignedOp [] := by
  refine ⟨by decide +kernel, ?_, ?_, by decide⟩ <;> intros <;> exact Instr.noConfusion

theorem witness_OutputFrame :
    (next? (exec (.line 0 0 3 3 .set) blank)).map (fun t => t.out) = some [] ∧
    Instr.line 0 0 3 3 .set ≠ .flush := by decide +kernel

theorem witness_ClearForgetsFramebuffer :
    decode (blankWith [0x01, 0, 0, 0, 0, 0, 0, 0, 0x03]).input = .command .clear [0x03] := by decide

theorem witness_XorTwiceRestores : drawMode? (.line 0 0 200 0 .xor) = some .xor := rfl

theorem witness_OtherModesAreIdempotent :
    drawMode? (.blitp 0 0 3 2 .set plain [0xA8]) ≠ some .xor ∧ drawMode? .clear ≠ some .xor := by
  decide

/-- Operands that differ by wrapping: 5 and 89, 7 and 55, banks 1 and 7; and the ends of a range. -/
theorem witness_CoordinatesWrap :
    ((5 : Byte).toNat % 84 = (89 : Byte).toNat % 84 ∧ (7 : Byte).toNat % 48 = (55 : Byte).toNat % 48 ∧
      (1 : Byte).toNat % 6 = (7 : Byte).toNat % 6) ∧
    (83 : Byte).toNat % 84 = (251 : Byte).toNat % 84 ∧ (15 : Byte).toNat % 48 = (255 : Byte).toNat % 48 ∧
    (3 : Byte).toNat % 6 = (255 : Byte).toNat % 6 := by decide

theorem witness_PixelAddressIsBijection :
    (83 < 84 ∧ 47 < 48) ∧ (503 < 504 ∧ 7 < 8) ∧ pixelIndex 83 47 = 503 ∧ pixelBit 47 = 7 := by decide

theorem witness_SetPixelWritesOneBit : 7 < 8 ∧ (0 : Nat) ≠ 255 % 84 + 255 % 48 / 8 * 84 := by decide

/-- A pixel other than the one `SETPX 89, 58` writes; a byte other than the one `SETB 83, 5` writes. -/
theorem witness_SetpxLaws_SetbResult :
    (83 < 84 ∧ 47 < 48 ∧ ¬(83 = (89 : Byte).toNat % 84 ∧ 47 = (58 : Byte).toNat % 48)) ∧
    (502 : Nat) ≠ (83 : Byte).toNat % 84 + (5 : Byte).toNat % 6 * 84 := by decide

theorem witness_ClearResult : 0 < 504 ∧ 503 < 504 := by decide

/-- The last pixel, and the rows of a bank byte in descending order. -/
theorem witness_ByteIsEightPixels :
    ((83 : Byte).toNat < 84 ∧ (47 : Byte).toNat < 48) ∧
    ((83 : Byte).toNat < 84 ∧ (5 : Byte).toNat < 6) ∧ (83 < 84 ∧ 5 < 6) ∧
    (List.range 8).reverse.Perm (List.range 8) := by decide

/-- The longest line; its first two cells; a horizontal, a vertical and a diagonal line; a line that
is steeper than the diagonal. -/
theorem witness_LinePointsShape :
    (0 ≤ 255 ∧ 255 ≤ 255) ∧
    (linePoints false 0 0 255 1)[0]? = some (0, 0) ∧ (linePoints false 0 0 255 1)[1]? = some (1, 0) ∧
    ((255, 1) ∈ linePoints false 0 0 255 1) ∧
    absDiff 7 7 = 0 ∧ absDiff 255 0 = absDiff 0 255 ∧ absDiff 1 0 < absDiff 0 255 ∧
    ((0 : Int), (0 : Int), (-253 : Int)) ∈ lineTrace false 0 0 255 1 := by decide +kernel

theorem witness_LineFollowsRoundedSlope :
    (absDiff 2 0 < absDiff 5 0 ∧ 5 ≤ absDiff 5 0) ∧
    (absDiff 3 0 ≤ absDiff 3 0 ∧ 0 < absDiff 3 0 ∧ 0 ≤ absDiff 3 0) := by decide

theorem witness_LineOrderDoesNotMatter :
    ([(0, 0), (1, 1), (84, 0)] : List (Nat × Nat)).Perm [(84, 0), (1, 1), (0, 0)] := by decide

/-- The whole panel, an empty range, and the last columns and rows. -/
theorem witness_FrectWithoutOverlap :
    ((83 : Byte).toNat < (0 : Byte).toNat + 84 ∧ (48 : Byte).toNat ≤ (0 : Byte).toNat + 48) ∧
    ((2 : Byte).toNat < (3 : Byte).toNat + 84 ∧ (5 : Byte).toNat ≤ (5 : Byte).toNat + 48) ∧
    ((255 : Byte).toNat < (172 : Byte).toNat + 84 ∧ (255 : Byte).toNat ≤ (207 : Byte).toNat + 48) := by
  decide

theorem witness_CheckerboardFillsPanel :
    withA.Allowed ∧ ((83 : Byte).toNat < 84 ∧ (47 : Byte).toNat < 48) ∧ 503 < 504 :=
  ⟨⟨fun _ _ => rfl, fun _ _ _ _ _ _ => rfl⟩, by decide, by decide⟩

theorem witness_FrectOrderDoesNotMatter :
    ([(0, 0), (0, 48), (1, 1)] : List (Nat × Nat)).Perm [(0, 48), (1, 1), (0, 0)] := by decide

theorem witness_PcharResult : InFont 0x20 ∧ InFont 0x7E ∧ ¬InFont 0x1F ∧ ¬InFont 0x7F := by decide

/-- From the last column nothing fits; from column 78 one character does; 14 characters a row. -/
theorem witness_StringLayout :
    83 < 84 ∧ nprint 83 5 = 0 ∧ nprint 78 2 = 1 ∧ 14 ≤ 14 ∧ 14 ≤ 65535 := by decide

theorem witness_PstrResult :
    (∀ ch ∈ ([0x48, 0x69] : List Byte), InFont ch) ∧ (∀ ch ∈ ([] : List Byte), InFont ch) := by decide

theorem witness_SpacingColumnIsKept :
    47 < 48 ∧ (78 : Byte).toNat % 84 + 6 * 0 + 5 < 84 ∧ (84 : Byte).toNat % 84 + 6 * 13 + 5 < 84 := by
  decide

theorem witness_HelloRoundTrip :
    ([0x48, 0x65, 0x6C, 0x6C, 0x6F] : List Nat)[4]? = some 0x6F ∧ 4 < 5 := by decide

theorem witness_BankAlignedGlyph : 40 % 48 % 8 = 0 ∧ 88 % 48 % 8 = 0 := by decide

/-- Exactly enough payload, with a width that is no multiple of eight, and no payload at all. -/
theorem witness_BlitpResult :
    ((3 : Byte).toNat * (3 : Byte).toNat + 7) / 8 ≤ ([0xFF, 0xFF] : List Byte).length ∧
    ((0 : Byte).toNat * (255 : Byte).toNat + 7) / 8 ≤ ([] : List Byte).length := by decide

theorem witness_BlitsResult :
    ((9 : Byte).toNat + 7) / 8 * (1 : Byte).toNat ≤ ([0x80, 0x80] : List Byte).length ∧
    ((0 : Byte).toNat + 7) / 8 * (200 : Byte).toNat ≤ ([] : List Byte).length := by decide

/-- The largest bitmaps that fit, upright and turned. -/
theorem witness_BlitWithoutOverlap :
    ((xformSize .r0 84 48).1 ≤ 84 ∧ (xformSize .r0 84 48).2 ≤ 48) ∧
    ((xformSize .r90 48 84).1 ≤ 84 ∧ (xformSize .r90 48 84).2 ≤ 48) := by decide

theorem witness_TransformIsBijection :
    (2 < 3 ∧ 1 < 2) ∧ (1 < (xformSize .r90 3 2).1 ∧ 2 < (xformSize .r90 3 2).2) ∧
    xform .r90 true 3 2 0 0 = xform .r90 true 3 2 0 0 := by decide

theorem witness_MaskWalkReadsTheBitmap :
    (8 < 9 ∧ 0 < 1) ∧ maskWalk true [0, 0, 9, 1, 0x80, 0x80] 9 1 =
      [[true, false, false, false, false, false, false, false, true]] := by decide +kernel

theorem witness_FlushResult : 503 < 504 ∧ 0 < 504 := by decide

theorem witness_HostResetLeaves : 0 < 504 ∧ 503 < 504 ∧ (blank.hostReset).resets = 1 := by
  exact ⟨by decide, by decide, rfl⟩

end Sys2Proof.Tests
end

/-! PROOFS. The packet stream (spec/30_encoding.md R60 to R70): what a whole packet decodes to, what
a step does with it, and from these the statements on framing and on programs. -/

namespace Sys2Proof

/-! ## What the decoder reads from a whole packet -/

/-- A stream that holds a whole packet gives a command or an illegal header, and in both cases LEN
payload bytes are gone with the header (R63, R72). -/
theorem decode_whole (h0 h1 h2 h3 h4 h5 h6 h7 : Byte) {tl : List Byte}
    (h : 256 * h6.toNat + h7.toNat ≤ tl.length) :
    (∃ i, decode (h0 :: h1 :: h2 :: h3 :: h4 :: h5 :: h6 :: h7 :: tl) =
      .command i (tl.drop (256 * h6.toNat + h7.toNat))) ∨
    (∃ why, decode (h0 :: h1 :: h2 :: h3 :: h4 :: h5 :: h6 :: h7 :: tl) =
      .illegal why (tl.drop (256 * h6.toNat + h7.toNat))) := by
  rw [decode_cons, if_neg (Nat.not_lt.2 h), decodePacket]
  split
  · exact .inl ⟨_, rfl⟩
  · exact .inr ⟨_, rfl⟩

/-- A header followed by exactly its payload is read as that payload, whatever comes next. -/
theorem decode_headerBytes (op ctl a b c d : Byte) {pay : List Byte} (h : pay.length ≤ maxLen)
    (rest : List Byte) :
    decode (headerBytes op ctl a b c d pay.length ++ pay ++ rest) =
      decodePacket (headerWord op ctl a b c d (BitVec.ofNat 8 (pay.length / 256))
        (BitVec.ofNat 8 (pay.length % 256))) pay rest := by
  have hmax : pay.length ≤ 65535 := h
  have hlen : 256 * (BitVec.ofNat 8 (pay.length / 256)).toNat +
      (BitVec.ofNat 8 (pay.length % 256)).toNat = pay.length := by
    simp only [BitVec.toNat_ofNat]
    omega
  simp only [headerBytes, List.cons_append, List.nil_append]
  rw [decode_cons, hlen, if_neg (by simp), List.take_left, List.drop_left]

/-! ## The packet of a command -/

/-- The well-formed commands are those whose payload fits LEN (R61). -/
theorem wellFormed_iff (i : Instr) : WellFormed i = true ↔ i.payload.length ≤ maxLen := by
  cases i <;> simp [WellFormed, Instr.payload]

/-- A field of zeros stays zero under a mask that is zero on the bits below it. -/
theorem zero_append_and {n m : Nat} (x y : BitVec n) (z : BitVec m) (h : x &&& y = 0) :
    (x ++ z) &&& (y ++ 0#m) = 0 := by
  rw [BitVec.and_append, h, BitVec.and_zero]
  exact BitVec.zero_append_zero

/-- MODE in the CTL byte of a command that uses MODE only, and its reserved bits (R62). -/
theorem ctlMode_fields (mode : DrawMode) :
    (ctlMode mode).extractLsb' 0 2 = mode.code ∧ ctlMode mode &&& 252#8 = 0 :=
  ⟨BitVec.extractLsb'_append_eq_right, zero_append_and 0#6 63#6 _ rfl⟩

/-- MODE and FILL in the CTL byte of FRECT, and its reserved bits (R62). -/
theorem ctlFill_fields (fill : FillMode) (mode : DrawMode) :
    (ctlFill fill mode).extractLsb' 0 2 = mode.code ∧
    (ctlFill fill mode).extractLsb' 2 3 = fill.code ∧ ctlFill fill mode &&& 224#8 = 0 :=
  ⟨BitVec.extractLsb'_append_eq_right,
    (BitVec.extractLsb'_append_eq_of_le (by decide)).trans BitVec.extractLsb'_append_eq_right,
    zero_append_and _ 56#6 _ (zero_append_and 0#3 7#3 _ rfl)⟩

/-- MODE and the transform in the CTL byte of a blit, and its reserved bits (R62). -/
theorem ctlBlit_fields (xf : Transform) (mode : DrawMode) :
    (ctlBlit xf mode).extractLsb' 0 2 = mode.code ∧ ctlXf (ctlBlit xf mode) = xf ∧
    ctlBlit xf mode &&& 192#8 = 0 := by
  have hrot : (ctlBlit xf mode).extractLsb' 2 2 = xf.rot.code :=
    (BitVec.extractLsb'_append_eq_of_le (by decide)).trans BitVec.extractLsb'_append_eq_right
  have hmir : (ctlBlit xf mode).getLsbD 4 = xf.mir := by
    simp only [ctlBlit, BitVec.getLsbD_append]
    simp
  have hinv : (ctlBlit xf mode).getLsbD 5 = xf.inv := by
    simp only [ctlBlit, BitVec.getLsbD_append]
    simp
  have hreserved : ctlBlit xf mode &&& 192#8 = 0 :=
    zero_append_and _ 48#6 _ (zero_append_and _ 12#4 _ (zero_append_and _ 6#3 _
      (zero_append_and 0#2 3#2 _ rfl)))
  exact ⟨BitVec.extractLsb'_append_eq_right,
    by rw [ctlXf, hrot, hmir, hinv, Rotation.ofCode_code], hreserved⟩

/-- A command's packet is a header with the length of the payload, and the payload; and the command
word of that header, with the payload, is the command again (R60, R64, R73). -/
theorem encode_eq_headerBytes (i : Instr) :
    ∃ op ctl a b c d, encode i = headerBytes op ctl a b c d i.payload.length ++ i.payload ∧
      decodeCommand (headerWord op ctl a b c d (BitVec.ofNat 8 (i.payload.length / 256))
        (BitVec.ofNat 8 (i.payload.length % 256))) i.payload = .ok i := by
  cases i with
  | clear => exact ⟨_, _, _, _, _, _, rfl, by simp [decodeCommand_clear, Instr.payload]⟩
  | setpx col row value mode =>
    exact ⟨_, _, _, _, _, _, rfl, by simp [decodeCommand_setpx, Instr.payload, ctlMode_fields]⟩
  | getpx col row => exact ⟨_, _, _, _, _, _, rfl, by simp [decodeCommand_getpx, Instr.payload]⟩
  | setb col bank byte =>
    exact ⟨_, _, _, _, _, _, rfl, by simp [decodeCommand_setb, Instr.payload]⟩
  | getb col bank => exact ⟨_, _, _, _, _, _, rfl, by simp [decodeCommand_getb, Instr.payload]⟩
  | line col0 row0 col1 row1 mode =>
    exact ⟨_, _, _, _, _, _, rfl, by simp [decodeCommand_line, Instr.payload, ctlMode_fields]⟩
  | frect col0 row0 col1 row1 fill mode =>
    exact ⟨_, _, _, _, _, _, rfl, by simp [decodeCommand_frect, Instr.payload, ctlFill_fields]⟩
  | pchar ch col row mode =>
    exact ⟨_, _, _, _, _, _, rfl, by simp [decodeCommand_pchar, Instr.payload, ctlMode_fields]⟩
  | pstr text col row mode =>
    exact ⟨_, _, _, _, _, _, rfl, by simp [decodeCommand_pstr, Instr.payload, ctlMode_fields]⟩
  | blitp col row width height mode xf data =>
    exact ⟨_, _, _, _, _, _, rfl, by simp [decodeCommand_blitp, Instr.payload, ctlBlit_fields]⟩
  | blits col row mode xf data =>
    exact ⟨_, _, _, _, _, _, rfl, by simp [decodeCommand_blits, Instr.payload, ctlBlit_fields]⟩
  | flush => exact ⟨_, _, _, _, _, _, rfl, by simp [decodeCommand_flush, Instr.payload]⟩

/-- A well-formed command's packet decodes to it, whatever bytes follow. -/
theorem decode_encode {i : Instr} (h : WellFormed i = true) (rest : List Byte) :
    decode (encode i ++ rest) = .command i rest := by
  obtain ⟨op, ctl, a, b, c, d, henc, hcmd⟩ := encode_eq_headerBytes i
  rw [henc, decode_headerBytes op ctl a b c d ((wellFormed_iff i).1 h), decodePacket, hcmd]

end Sys2Proof

namespace Sys2Proof.Machine

/-! ## A step, by what is at the front of the stream (R63) -/

theorem step_of_command {s : State} {i : Instr} {rest : List Byte}
    (h : decode s.input = .command i rest) : step s = exec i (consume rest s) := by
  rw [step, h]

theorem step_of_illegal {s : State} {why : IllegalHeader} {rest : List Byte}
    (h : decode s.input = .illegal why rest) :
    step s = .next (raiseError .illegal (consume rest s)) := by
  rw [step, h]
  rfl

theorem step_of_incomplete {s : State} (h : decode s.input = .incomplete) :
    step s = .fault (noPacket s.input) := by
  rw [step, h]

theorem noPacket_of_ne_nil {input : List Byte} (h : input ≠ []) :
    noPacket input = .incompletePacket :=
  if_neg h

/-- With an empty stream there is no step (R13). -/
theorem step_of_input_nil {s : State} (h : s.input = []) : step s = .fault .runEnded := by
  rw [step_of_incomplete (by rw [h]; rfl), h]
  rfl

/-- A command has a next state, and it leaves the stream as it is. -/
theorem exec_next (i : Instr) (s : State) : ∃ t, exec i s = .next t ∧ t.input = s.input := by
  obtain ⟨t, ht, -⟩ := exec_withInput i s s.input
  exact ⟨t, ht, exec_input ht⟩

/-- A step on a whole packet takes 8 + LEN bytes, whatever the header (R63, R70). -/
theorem step_of_whole {s : State} {h0 h1 h2 h3 h4 h5 h6 h7 : Byte} {tl : List Byte}
    (hin : s.input = h0 :: h1 :: h2 :: h3 :: h4 :: h5 :: h6 :: h7 :: tl)
    (hlen : 256 * h6.toNat + h7.toNat ≤ tl.length) :
    ∃ t, step s = .next t ∧ t.input = tl.drop (256 * h6.toNat + h7.toNat) ∧
      ((∃ i, decode s.input = .command i t.input ∧ step s = exec i (consume t.input s)) ∨
        (∃ why, decode s.input = .illegal why t.input ∧
          step s = .next (raiseError .illegal (consume t.input s)))) := by
  rcases decode_whole h0 h1 h2 h3 h4 h5 h6 h7 hlen with ⟨i, hdec⟩ | ⟨why, hdec⟩ <;>
    rw [← hin] at hdec
  · obtain ⟨t, ht, htin⟩ := exec_next i (consume (tl.drop (256 * h6.toNat + h7.toNat)) s)
    have hstep := step_of_command hdec
    rw [consume_input] at htin
    exact ⟨t, hstep.trans ht, htin, .inl ⟨i, by rw [htin, hdec], by rw [htin, hstep]⟩⟩
  · exact ⟨_, step_of_illegal hdec, rfl, .inr ⟨why, hdec, step_of_illegal hdec⟩⟩

/-- Settles O4: the stream is empty, shorter than a header, shorter than its packet, or holds a
whole packet; the decoder says which, and a step follows it. -/
theorem packetFraming : Obligations.PacketFraming := by
  refine ⟨?whole, ?shortPayload, ?shortHeader, fun _ => step_of_input_nil, fun _ _ => rfl⟩
  case whole =>
    intro s h0 h1 h2 h3 h4 h5 h6 h7 tl hin hlen
    exact step_of_whole hin hlen
  case shortPayload =>
    intro s h0 h1 h2 h3 h4 h5 h6 h7 tl hin hlen
    have hdec : decode s.input = .incomplete := by rw [hin, decode_cons, if_pos hlen]
    rw [step_of_incomplete hdec, noPacket_of_ne_nil (by simp [hin])]
  case shortHeader =>
    intro s hpos hlt
    rw [step_of_incomplete (decode_short hlt), noPacket_of_ne_nil (List.ne_nil_of_length_pos hpos)]

/-! ## A program's packets -/

theorem programBytes_cons (i : Instr) (is : List Instr) :
    programBytes (i :: is) = encode i ++ programBytes is :=
  List.flatMap_cons

/-- One step takes the first packet of a program and runs its command (R49 a, R63). -/
theorem step_of_programBytes_cons {s : State} {i : Instr} {is : List Instr}
    (hwf : WellFormed i = true) (hin : s.input = programBytes (i :: is)) :
    step s = exec i (consume (programBytes is) s) :=
  step_of_command (by rw [hin, programBytes_cons, decode_encode hwf])

/-- Settles O7, by induction on the program: each step leaves the packets of the commands that
remain, and a command does the same whatever bytes wait behind it. -/
theorem programRunsInOrder : Obligations.ProgramRunsInOrder := by
  intro is
  induction is with
  | nil =>
    intro s _ hin
    have hs : s.input = [] := hin
    have hsame : { s with input := [] } = s := by rw [← hs]
    exact ⟨s, run_zero s, by rw [hsame, execAll], hs, step_of_input_nil hs⟩
  | cons i is ih =>
    intro s hwf hin
    obtain ⟨hi, his⟩ := List.forall_mem_cons.1 hwf
    obtain ⟨u, hu, hu'⟩ := exec_withInput i (consume (programBytes is) s) []
    have hstep := (step_of_programBytes_cons hi hin).trans hu
    obtain ⟨t, hrun, hall, hend⟩ := ih u his (exec_input hu)
    refine ⟨t, ?_, ?_, hend⟩
    · rw [List.length_cons, run_succ, hstep]
      exact hrun
    · have hexec : exec i { s with input := [] } = .next { u with input := [] } := hu'
      rw [execAll, hexec]
      exact hall

end Sys2Proof.Machine

/-! PROOFS. The state (spec/10_state.md R20 to R31): what a command and a step can do to each
register, that FB stays the 504-byte array, and what a reset leaves. -/

namespace Sys2Proof.Machine

/-! ## FB as data (R20) -/

/-- A memory that lists each index once is its indexes, each paired with what it reads there. -/
theorem Memory.eq_map_read {m : Memory} (h : (m.map Prod.fst).Nodup) :
    m = (m.map Prod.fst).map (fun a => (a, m.read a)) := by
  induction m with
  | nil => rfl
  | cons x t ih =>
    obtain ⟨b, v⟩ := x
    obtain ⟨hb, ht⟩ := List.nodup_cons.1 h
    have htail : ∀ a ∈ t.map Prod.fst, Memory.read ((b, v) :: t) a = Memory.read t a :=
      fun a ha => if_neg fun hab : a = b => hb (hab ▸ ha)
    have hhead : Memory.read ((b, v) :: t) b = v := if_pos rfl
    rw [List.map_cons, List.map_cons, hhead,
      List.map_congr_left fun a ha => congrArg (Prod.mk a) (htail a ha), ← ih ht]

/-- The 504-byte array is determined by its bytes. -/
theorem Memory.eq_of_wf {m : Memory} (h : m.wf = true) :
    m = (List.range Config.fbLen).map (fun a => (a, m.read a)) := by
  have hkeys := (Memory.wf_iff m).1 h
  have hm := Memory.eq_map_read (hkeys ▸ List.nodup_range)
  rwa [hkeys] at hm

/-- Settles O12: each of the two is the listing of its 504 bytes. -/
theorem framebufferIsCanonical : Obligations.FramebufferIsCanonical := by
  intro m m' h h' hread
  rw [Memory.eq_of_wf h, Memory.eq_of_wf h']
  exact List.map_congr_left fun a ha => congrArg (Prod.mk a) (hread a (List.mem_range.1 ha))

/-! ## STATUS as a code (R24) -/

theorem statusOf_toNat (c : BitVec 3) : (statusOf c).toNat = c.toNat := by
  rw [statusOf, BitVec.toNat_append, BitVec.toNat_ofNat, Nat.zero_mod, Nat.zero_shiftLeft,
    Nat.zero_or]

theorem statusOf_reserved (c : BitVec 3) : statusOf c &&& 0xF8#8 = 0 :=
  zero_append_and 0#5 31#5 c rfl

theorem statusOf_code (c : BitVec 3) : (statusOf c).extractLsb' 0 3 = c :=
  BitVec.extractLsb'_append_eq_right

/-- The host reads back the code that was written. -/
theorem hostStatus_of_status {s : State} {c : BitVec 3} (h : s.status = statusOf c) :
    s.hostStatus = s.status := by
  rw [State.hostStatus, State.code, h, statusOf_code]

theorem ErrorCode.code_le (e : ErrorCode) : e.code.toNat ≤ 4 := by
  cases e <;> decide

/-- STATUS holds one of the codes 0 to 4, its other bits 0 (R24). -/
def HoldsCode (s : State) : Prop := ∃ c : BitVec 3, c.toNat ≤ 4 ∧ s.status = statusOf c

theorem holdsCode_complete (s : State) : HoldsCode (complete s) := ⟨okCode, by decide, rfl⟩

theorem holdsCode_raiseError (e : ErrorCode) (s : State) : HoldsCode (raiseError e s) :=
  ⟨e.code, e.code_le, rfl⟩

theorem HoldsCode.status_le {s : State} (h : HoldsCode s) : s.status.toNat ≤ 4 := by
  obtain ⟨c, hc, hs⟩ := h
  rwa [hs, statusOf_toNat]

/-! ## What a command can do to each register -/

/-- The commands that return a value (R25). -/
def IsQuery (i : Instr) : Prop := (∃ col row, i = .getpx col row) ∨ (∃ col bank, i = .getb col bank)

theorem exec_getpx (col row : Byte) (s : State) :
    exec (.getpx col row) s = .next (answer (getPixel s.fb col.toNat row.toNat) s) := rfl

theorem exec_getb (col bank : Byte) (s : State) :
    exec (.getb col bank) s =
      .next (answer (s.fb.read (bankTarget col.toNat bank.toNat)) s) := rfl

/-- A query answers a value that it reads from FB alone (R108, R110). -/
theorem exec_of_isQuery {i : Instr} (h : IsQuery i) :
    ∃ q : Memory → Byte, ∀ s, exec i s = .next (answer (q s.fb) s) := by
  rcases h with ⟨col, row, rfl⟩ | ⟨col, bank, rfl⟩
  · exact ⟨fun m => getPixel m col.toNat row.toNat, exec_getpx col row⟩
  · exact ⟨fun m => m.read (bankTarget col.toNat bank.toNat), exec_getb col bank⟩

/-- A property of a command's next state holds when it holds of each way a command can end
(`exec_cases`). -/
theorem exec_elim {motive : State → Prop} {i : Instr} {s t : State} (h : exec i s = .next t)
    (error : ∀ e, motive (raiseError e s))
    (drawing : ∀ mode ps, motive (draw mode ps s))
    (clear : motive (complete { s with fb := Memory.cleared }))
    (setb : ∀ (col bank : Nat) (byte : Byte),
      motive (complete { s with fb := s.fb.write (bankTarget col bank) byte }))
    (query : IsQuery i → ∀ v, motive (answer v s))
    (flush : i = .flush → motive (complete { s with out := s.out ++ scanOut params s.fb })) :
    motive t := by
  rcases exec_cases i s with ⟨e, he⟩ | ⟨mode, ps, -, he⟩ | ⟨-, he⟩ | ⟨c, b, v, -, he⟩ |
    ⟨v, hq, he⟩ | ⟨hi, he⟩ <;> obtain rfl := Host.Outcome.next.inj (he.symm.trans h)
  · exact error e
  · exact drawing mode ps
  · exact clear
  · exact setb _ _ v
  · exact query hq v
  · exact flush hi

theorem exec_holdsCode {i : Instr} {s t : State} (h : exec i s = .next t) : HoldsCode t :=
  exec_elim h (error := fun e => holdsCode_raiseError e s)
    (drawing := fun _ _ => holdsCode_complete _)
    (clear := holdsCode_complete _)
    (setb := fun _ _ _ => holdsCode_complete _)
    (query := fun _ _ => holdsCode_complete _)
    (flush := fun _ => holdsCode_complete _)

/-- Every command keeps FB the 504-byte array: what it writes is the canonical zero array, or goes
through addresses that have been wrapped (R20, R43). -/
theorem exec_wf {i : Instr} {s t : State} (h : exec i s = .next t) (hwf : s.fb.wf = true) :
    t.fb.wf = true :=
  exec_elim h (motive := fun t => t.fb.wf = true) (error := fun _ => hwf)
    (drawing := fun mode ps => plotAll_wf hwf mode ps)
    (clear := Memory.wf_cleared)
    (setb := fun col bank byte => Memory.wf_write hwf (bankTarget_lt col bank) byte)
    (query := fun _ _ => hwf)
    (flush := fun _ => hwf)

/-- Only a query writes RESULT (R25). -/
theorem exec_result {i : Instr} {s t : State} (h : exec i s = .next t) (hi : ¬IsQuery i) :
    t.result = s.result :=
  exec_elim h (motive := fun t => t.result = s.result) (error := fun _ => rfl)
    (drawing := fun _ _ => rfl)
    (clear := rfl)
    (setb := fun _ _ _ => rfl)
    (query := fun hq => absurd hq hi)
    (flush := fun _ => rfl)

theorem exec_resets {i : Instr} {s t : State} (h : exec i s = .next t) : t.resets = s.resets :=
  exec_elim h (motive := fun t => t.resets = s.resets) (error := fun _ => rfl)
    (drawing := fun _ _ => rfl)
    (clear := rfl)
    (setb := fun _ _ _ => rfl)
    (query := fun _ _ => rfl)
    (flush := fun _ => rfl)

/-- Only FLUSH changes OUT, and it appends one scan-out (R26, R50). -/
theorem exec_out {i : Instr} {s t : State} (h : exec i s = .next t) :
    t.out = s.out ∨ i = .flush ∧ t.out = s.out ++ scanOut params s.fb :=
  exec_elim h (motive := fun t => t.out = s.out ∨ i = .flush ∧ t.out = s.out ++ scanOut params s.fb)
    (error := fun _ => .inl rfl)
    (drawing := fun _ _ => .inl rfl)
    (clear := .inl rfl)
    (setb := fun _ _ _ => .inl rfl)
    (query := fun _ _ => .inl rfl)
    (flush := fun hi => .inr ⟨hi, rfl⟩)

/-- Settles O17, from the lemmas on the stream, the reset count and OUT. -/
theorem outputFrame : Obligations.OutputFrame := by
  intro i s t h
  refine ⟨exec_input h, exec_resets h, fun hi => ?_, ?_⟩
  · exact (exec_out h).resolve_right fun hflush => hi hflush.1
  · rcases exec_out h with hout | ⟨-, hout⟩
    · exact ⟨[], by rw [hout, List.append_nil]⟩
    · exact ⟨_, hout⟩

/-- Settles O19: a query's answer comes from FB, and each other command's next state takes RESULT
from the state it starts in and STATUS from nowhere. -/
theorem statusAndResultAreNoInputs : Obligations.StatusAndResultAreNoInputs := by
  intro i s st r
  by_cases hq : IsQuery i
  · obtain ⟨q, h⟩ := exec_of_isQuery hq
    exact ⟨_, _, h s, h _, rfl, fun _ => rfl⟩
  · rcases exec_uniform i with ⟨e, h⟩ | ⟨mode, ps, -, h⟩ | ⟨-, h⟩ | ⟨c, b, v, -, h⟩ | ⟨q, hi, -⟩ |
      ⟨-, h⟩
    case inr.inr.inr.inr.inl => exact absurd hi hq
    all_goals exact ⟨_, _, h s, h _, rfl, fun hi => absurd hi hq⟩

/-! ## What a step can do -/

/-- Settles O5. -/
theorem stepRunsDecodedInstruction : Obligations.StepRunsDecodedInstruction :=
  fun _ _ _ h => step_of_command h

/-- A step that has a next state ran a command or found an illegal header, its packet consumed
(R63, R70). -/
theorem step_cases {s t : State} (h : step s = .next t) :
    (∃ i rest, exec i (consume rest s) = .next t) ∨
    (∃ rest, t = raiseError .illegal (consume rest s)) := by
  cases hd : decode s.input with
  | command i rest => exact .inl ⟨i, rest, (step_of_command hd).symm.trans h⟩
  | illegal why rest =>
    exact .inr ⟨rest, Host.Outcome.next.inj (h.symm.trans (step_of_illegal hd))⟩
  | incomplete => exact absurd (h.symm.trans (step_of_incomplete hd)) nofun

theorem step_holdsCode {s t : State} (h : step s = .next t) : HoldsCode t := by
  rcases step_cases h with ⟨i, rest, hexec⟩ | ⟨rest, rfl⟩
  · exact exec_holdsCode hexec
  · exact holdsCode_raiseError _ _

theorem step_wf {s t : State} (h : step s = .next t) (hwf : s.fb.wf = true) : t.fb.wf = true := by
  rcases step_cases h with ⟨i, rest, hexec⟩ | ⟨rest, rfl⟩
  · exact exec_wf hexec hwf
  · exact hwf

/-- Settles O11: FB by `step_wf`, STATUS by `step_holdsCode`. -/
theorem stepKeepsInvariant : Obligations.StepKeepsInvariant :=
  fun _ _ hinv h => ⟨step_wf h hinv.fb, (step_holdsCode h).status_le⟩

/-- Settles O15, from the form `statusOf c` of what a step leaves in STATUS. -/
theorem statusHoldsACode : Obligations.StatusHoldsACode := by
  intro s t h
  obtain ⟨c, -, hs⟩ := step_holdsCode h
  exact ⟨(step_holdsCode h).status_le, hostStatus_of_status hs, by rw [hs]; exact statusOf_reserved c⟩

/-- Settles O16, from the queries' own equations, `exec_result` and the step on an illegal
header. -/
theorem resultRegister : Obligations.ResultRegister := by
  refine ⟨?getpx, ?getb, ?others, ?illegal, fun _ => rfl⟩
  case getpx =>
    exact fun col row s => ⟨_, exec_getpx col row s, answer_status _ _, answer_result _ _⟩
  case getb =>
    exact fun col bank s => ⟨_, exec_getb col bank s, answer_status _ _, answer_result _ _⟩
  case others =>
    intro i s t hgetpx hgetb h
    refine exec_result h ?_
    rintro (⟨col, row, hi⟩ | ⟨col, bank, hi⟩)
    · exact hgetpx col row hi
    · exact hgetb col bank hi
  case illegal =>
    intro s t why rest hdec h
    obtain rfl := Host.Outcome.next.inj ((step_of_illegal hdec).symm.trans h)
    rw [raiseError_result, consume_result]

/-! ## Reset (R31, R200) -/

/-- Settles O9. -/
theorem resetMeetsInvariant : Obligations.ResetMeetsInvariant :=
  ⟨Memory.wf_afterReset 0, by rw [reset_status]; decide⟩

/-- Settles O10: FB is the listing of the free values of this reset, every other field is fixed. -/
theorem hostResetLeaves : Obligations.HostResetLeaves := by
  intro s
  have hinv : MachineInv s.hostReset :=
    ⟨Memory.wf_afterReset (s.resets + 1), by rw [hostReset_status]; decide⟩
  exact ⟨hinv, hostReset_status s, hostReset_result s, hostReset_out s, hostReset_input s,
    fun _ hi => Memory.read_afterReset (s.resets + 1) hi⟩

end Sys2Proof.Machine

/-! PROOFS. The framebuffer as memory (spec/20_memory.md R41 to R46): the pixel addresser, wrapped
coordinates, what a repeated command does, and the commands that only read. -/

namespace Sys2Proof.Machine

/-! ## A command executed twice (R46) -/

/-- A command that carries a draw mode fails whatever the state, or makes the same SetPixel calls in
that mode from every state. -/
theorem exec_of_drawMode {i : Instr} {mode : DrawMode} (hmode : drawMode? i = some mode) :
    (∃ e, ∀ s, exec i s = .next (raiseError e s)) ∨
    (∃ ps, ∀ s, exec i s = .next (draw mode ps s)) := by
  rcases exec_uniform i with ⟨e, h⟩ | ⟨mode', ps, hmode', h⟩ | ⟨rfl, -⟩ | ⟨col, bank, byte, rfl, -⟩ |
    ⟨-, ⟨col, row, rfl⟩ | ⟨col, bank, rfl⟩, -⟩ | ⟨rfl, -⟩
  case inl => exact .inl ⟨e, h⟩
  case inr.inl =>
    obtain rfl := Option.some.inj (hmode'.symm.trans hmode)
    exact .inr ⟨ps, h⟩
  all_goals exact nomatch hmode

/-- In xor mode a pixel's old bit is flipped by the bit the calls alone would leave. -/
theorem composeHits_xor (c r : Nat) (ps : List Plot) (old : Bool) :
    composeHits .xor c r ps old = (old ^^ composeHits .xor c r ps false) := by
  induction ps generalizing old with
  | nil => simp
  | cons p ps ih =>
    rw [composeHits_cons, composeHits_cons]
    split_ifs with hhit
    · rw [ih, ih (compose .xor false _)]
      simp [compose]
    · exact ih old

theorem composeHits_xor_twice (c r : Nat) (ps : List Plot) (old : Bool) :
    composeHits .xor c r ps (composeHits .xor c r ps old) = old := by
  rw [composeHits_xor, composeHits_xor c r ps old, Bool.xor_assoc, Bool.xor_self, Bool.xor_false]

theorem plotAll_xor_twice_read (m : Memory) (ps : List Plot) (a : Nat) :
    (plotAll .xor (plotAll .xor m ps) ps).read a = m.read a := by
  rw [← plotAll_append, plotAll_read_congr (mode' := .xor) (ps' := []), plotAll_nil]
  intro c r old
  rw [composeHits_append, composeHits_xor_twice, composeHits_nil]

/-- Settles O21: both executions fail, or both make the same calls and the second flips back every
bit the first flipped. -/
theorem xorTwiceRestores : Obligations.XorTwiceRestores := by
  intro i s hmode
  rcases exec_of_drawMode hmode with ⟨e, h⟩ | ⟨ps, h⟩
  · exact ⟨_, _, h s, h _, fun _ => rfl⟩
  · exact ⟨_, _, h s, h _, plotAll_xor_twice_read s.fb ps⟩

/-- Outside xor mode a pixel that was set ends no less set than one that was clear. -/
theorem compose_monotone {mode : DrawMode} (hmode : mode ≠ .xor) (v : Bool) :
    Monotone (compose mode · v) := by
  cases mode
  case xor => exact absurd rfl hmode
  all_goals revert v; decide

theorem composeHits_monotone {mode : DrawMode} (hmode : mode ≠ .xor) (c r : Nat) (ps : List Plot) :
    Monotone (composeHits mode c r ps) := by
  induction ps with
  | nil => exact monotone_id
  | cons p ps ih =>
    intro a b hab
    rw [composeHits_cons, composeHits_cons]
    split_ifs with hhit
    · exact ih (compose_monotone hmode _ hab)
    · exact ih hab

/-- A monotone map of bits is constant or the identity. -/
theorem idempotent_of_monotone_bool {f : Bool → Bool} (hf : Monotone f) (b : Bool) :
    f (f b) = f b := by
  have hle : f false = true → f true = true := Bool.le_iff_imp.1 (hf (Bool.false_le true))
  cases hfalse : f false
  · cases htrue : f true <;> cases b <;> simp [hfalse, htrue]
  · cases b <;> simp [hfalse, hle hfalse]

theorem plotAll_twice_read {mode : DrawMode} (hmode : mode ≠ .xor) (m : Memory) (ps : List Plot)
    (a : Nat) : (plotAll mode (plotAll mode m ps) ps).read a = (plotAll mode m ps).read a := by
  rw [← plotAll_append]
  refine plotAll_read_congr (fun c r old => ?_) a
  rw [composeHits_append, idempotent_of_monotone_bool (composeHits_monotone hmode c r ps)]

theorem Memory.read_write_twice (m : Memory) (k a : Nat) (v : Byte) :
    ((m.write k v).write k v).read a = (m.write k v).read a := by
  by_cases h : a = k
  · rw [h, Memory.read_write_same, Memory.read_write_same]
  · exact Memory.read_write_other _ v h

/-- Settles O22: a drawing command makes the same calls again, and in these modes each pixel's bit
depends on the old one monotonically; SETB and CLEAR write the same bytes again; the rest leave FB
alone. -/
theorem otherModesAreIdempotent : Obligations.OtherModesAreIdempotent := by
  intro i s hxor
  rcases exec_uniform i with ⟨e, h⟩ | ⟨mode, ps, hmode, h⟩ | ⟨-, h⟩ | ⟨col, bank, byte, -, h⟩ |
    ⟨q, -, h⟩ | ⟨-, h⟩ <;> refine ⟨_, _, h s, h _, fun a => ?_⟩
  case inr.inl =>
    exact plotAll_twice_read (fun hm => hxor (hm ▸ hmode)) s.fb ps a
  case inr.inr.inr.inl =>
    exact Memory.read_write_twice s.fb _ a byte
  all_goals rfl

/-! ## Wrapped coordinates (R43) -/

/-- The call with its cell reduced to the screen. -/
def Plot.wrapped (p : Plot) : Plot := ⟨wrapCol p.col, wrapRow p.row, p.value⟩

theorem wrapCol_wrapCol (n : Nat) : wrapCol (wrapCol n) = wrapCol n := Nat.mod_mod n _

theorem wrapRow_wrapRow (n : Nat) : wrapRow (wrapRow n) = wrapRow n := Nat.mod_mod n _

theorem plotAll_map_wrapped (mode : DrawMode) (m : Memory) (ps : List Plot) :
    plotAll mode m (ps.map Plot.wrapped) = plotAll mode m ps := by
  have h := plotAll_map_congr mode m ps Plot.wrapped id
    fun p _ => ⟨wrapCol_wrapCol p.col, wrapRow_wrapRow p.row, rfl⟩
  rwa [List.map_id] at h

/-- Two sequences of calls that wrap to the same calls draw the same. -/
theorem draw_congr_wrapped {ps ps' : List Plot} (h : ps.map Plot.wrapped = ps'.map Plot.wrapped)
    (mode : DrawMode) (s : State) : draw mode ps s = draw mode ps' s := by
  rw [draw, draw, ← plotAll_map_wrapped, h, plotAll_map_wrapped]

theorem getPixel_congr (m : Memory) {col col' row row' : Nat} (hcol : wrapCol col = wrapCol col')
    (hrow : wrapRow row = wrapRow row') : getPixel m col row = getPixel m col' row' := by
  rw [getPixel, getPixel, pixelTarget, pixelTarget, pixelTargetBit, pixelTargetBit, hcol, hrow]

theorem bankTarget_congr {col col' bank bank' : Nat} (hcol : wrapCol col = wrapCol col')
    (hbank : wrapBank bank = wrapBank bank') : bankTarget col bank = bankTarget col' bank' := by
  rw [bankTarget, bankTarget, hcol, hbank]

/-- A call's cell may start from any operands with the same residues. -/
theorem wrapped_offset_congr {col col' row row' : Nat} (hcol : wrapCol col = wrapCol col')
    (hrow : wrapRow row = wrapRow row') (x y v : Nat) :
    Plot.wrapped ⟨col + x, row + y, v⟩ = Plot.wrapped ⟨col' + x, row' + y, v⟩ := by
  have hx : wrapCol (col + x) = wrapCol (col' + x) := Nat.ModEq.add_right x hcol
  have hy : wrapRow (row + y) = wrapRow (row' + y) := Nat.ModEq.add_right y hrow
  rw [Plot.wrapped, Plot.wrapped, hx, hy]

section Plots
variable (P : Config.Params) {col col' row row' : Nat}

theorem glyphPlots_wrapped_congr (g : Nat) (hcol : wrapCol col = wrapCol col')
    (hrow : wrapRow row = wrapRow row') :
    (glyphPlots P g col row).map Plot.wrapped = (glyphPlots P g col' row').map Plot.wrapped := by
  simp only [glyphPlots, List.map_flatMap, List.map_map, Function.comp_def,
    wrapped_offset_congr hcol hrow]

theorem stringPlots_wrapped_congr (text : List Byte) (hcol : wrapCol col = wrapCol col')
    (hrow : wrapRow row = wrapRow row') :
    (stringPlots P text col row).map Plot.wrapped =
      (stringPlots P text col' row').map Plot.wrapped := by
  simp only [stringPlots, List.map_flatMap, hcol, glyphPlots_wrapped_congr P _ rfl hrow]

theorem blitPlots_wrapped_congr (w h : Nat) (srcBit : Nat → Nat → Bool) (xf : Transform)
    (hcol : wrapCol col = wrapCol col') (hrow : wrapRow row = wrapRow row') :
    (blitPlots P w h srcBit col row xf).map Plot.wrapped =
      (blitPlots P w h srcBit col' row' xf).map Plot.wrapped := by
  simp only [blitPlots, List.map_flatMap, List.map_map, Function.comp_def,
    wrapped_offset_congr hcol hrow]

end Plots

section Commands
variable (P : Config.Params) {col col' row row' : Byte} (mode : DrawMode) (s : State)
  (hcol : wrapCol col.toNat = wrapCol col'.toNat) (hrow : wrapRow row.toNat = wrapRow row'.toNat)
include hcol hrow

theorem execSetpx_congr (value : Byte) :
    execSetpx col row value mode s = execSetpx col' row' value mode s := by
  refine congrArg Host.Outcome.next (draw_congr_wrapped ?_ mode s)
  exact congrArg ([·]) (wrapped_offset_congr hcol hrow 0 0 value.toNat)

theorem pcharWith_congr (ch : Byte) :
    pcharWith P ch col row mode s = pcharWith P ch col' row' mode s := by
  rw [pcharWith, pcharWith, draw_congr_wrapped (glyphPlots_wrapped_congr P _ hcol hrow)]

theorem pstrWith_congr (text : List Byte) :
    pstrWith P text col row mode s = pstrWith P text col' row' mode s := by
  rw [pstrWith, pstrWith, draw_congr_wrapped (stringPlots_wrapped_congr P text hcol hrow)]

theorem blitpWith_congr (w h : Byte) (xf : Transform) (data : List Byte) :
    blitpWith P col row w h mode xf data s = blitpWith P col' row' w h mode xf data s := by
  simp only [blitpWith, draw_congr_wrapped (blitPlots_wrapped_congr P _ _ _ xf hcol hrow)]

theorem blitsWith_congr (xf : Transform) (data : List Byte) :
    blitsWith P col row mode xf data s = blitsWith P col' row' mode xf data s := by
  simp only [blitsWith, draw_congr_wrapped (blitPlots_wrapped_congr P _ _ _ xf hcol hrow)]

end Commands

theorem exec_setb (col bank byte : Byte) (s : State) :
    exec (.setb col bank byte) s =
      .next (complete { s with fb := s.fb.write (bankTarget col.toNat bank.toNat) byte }) := rfl

/-- Settles O23: each command's calls wrap to the same calls, and a query and SETB compute the same
address. -/
theorem coordinatesWrap : Obligations.CoordinatesWrap := by
  intro col col' row row' s hcol
  refine ⟨fun hrow => ⟨?setpx, ?getpx, ?pchar, ?pstr, ?blitp, ?blits⟩,
    fun hbank => ⟨?setb, ?getb⟩⟩
  case setpx => exact fun value mode => execSetpx_congr mode s hcol hrow value
  case getpx => rw [exec_getpx, exec_getpx, getPixel_congr s.fb hcol hrow]
  case pchar => exact fun ch mode => pcharWith_congr params mode s hcol hrow ch
  case pstr => exact fun text mode => pstrWith_congr params mode s hcol hrow text
  case blitp => exact fun w h mode xf data => blitpWith_congr params mode s hcol hrow w h xf data
  case blits => exact fun mode xf data => blitsWith_congr params mode s hcol hrow xf data
  case setb =>
    intro byte
    rw [exec_setb, exec_setb, bankTarget_congr hcol hbank]
  case getb => rw [exec_getb, exec_getb, bankTarget_congr hcol hbank]

/-! ## The pixel addresser (R41) -/

theorem pixelIndex_mod {c : Nat} (hc : c < 84) (r : Nat) : pixelIndex c r % 84 = c := by
  rw [pixelIndex, Nat.add_mul_mod_self_right, Nat.mod_eq_of_lt hc]

theorem pixelIndex_div {c : Nat} (hc : c < 84) (r : Nat) : pixelIndex c r / 84 = r / 8 := by
  rw [pixelIndex, Nat.add_mul_div_right _ _ (by decide), Nat.div_eq_of_lt hc, Nat.zero_add]

/-- Settles O24: byte index and bit number are the remainder and quotient of column and row, which
give the pixel back. -/
theorem pixelAddressIsBijection : Obligations.PixelAddressIsBijection := by
  refine ⟨?bitOfPixel, ?pixelOfBit, fun _ _ _ _ => ⟨rfl, rfl⟩⟩
  case bitOfPixel =>
    intro c r hc hr
    refine ⟨pixelIndex_lt hc hr, Nat.mod_lt r (by decide), pixelIndex_mod hc r, ?_⟩
    rw [pixelIndex_div hc, pixelBit, Nat.div_add_mod]
  case pixelOfBit =>
    intro idx b hidx hb
    have hbank : (8 * (idx / 84) + b) / 8 = idx / 84 := by omega
    refine ⟨Nat.mod_lt idx (by decide), by omega, ?_, ?_⟩
    · rw [pixelIndex, hbank, Nat.mod_add_div']
    · rw [pixelBit, Nat.mul_add_mod, Nat.mod_eq_of_lt hb]

/-! ## The commands that only read (R42, R46) -/

theorem exec_flush (s : State) :
    exec .flush s = .next (complete { s with out := s.out ++ scanOut params s.fb }) := rfl

/-- Settles O18. -/
theorem queriesAndFlushKeepFramebuffer : Obligations.QueriesAndFlushKeepFramebuffer :=
  ⟨fun col row s => ⟨_, exec_getpx col row s, answer_fb s _⟩,
    fun col bank s => ⟨_, exec_getb col bank s, answer_fb s _⟩,
    fun s => ⟨_, exec_flush s, complete_fb _⟩⟩

/-- Settles O31. -/
theorem getbResult : Obligations.GetbResult :=
  fun col bank s => exec_getb col bank s

/-- The data elements of one scan-out, in the order they are emitted (R170). -/
def scanData (m : Memory) : List OutElem :=
  (List.range Config.fbLen).map (fun i => ⟨.data, m.read i⟩)

theorem scanOut_params (m : Memory) :
    scanOut params m = Config.cursorResetSeq.map (fun e => ⟨.cmd, e⟩) ++ scanData m := rfl

theorem scanData_length (m : Memory) : (scanData m).length = 504 := by
  rw [scanData, List.length_map, List.length_range]

theorem scanData_getElem? (m : Memory) {j : Nat} (h : j < 504) :
    (scanData m)[j]? = some ⟨.data, m.read j⟩ := by
  rw [scanData, List.getElem?_map, List.getElem?_range h, Option.map_some]

/-- Settles O56: the data of a scan-out is FB in index order, and index `j` is column `j mod 84` of
bank `j div 84` (R42). -/
theorem flushResult : Obligations.FlushResult := by
  intro s
  refine ⟨_, scanData s.fb, exec_flush s, rfl, ?_, scanData_length s.fb, fun j hj => ?_⟩
  · rw [complete_out, scanOut_params, List.append_assoc]
  · rw [scanData_getElem? s.fb hj, Nat.mod_add_div']

end Sys2Proof.Machine

/-! PROOFS. Commands and packets (spec/30_encoding.md R60 to R74): the CTL byte as its subfields,
what the masks of R66 accept, the packet of what was decoded, and from these the two round trips and
the illegal headers; and the transform of a blit (spec/44_bitmap_blit.md R153). -/

namespace Sys2Proof

/-! ## The CTL byte, from its subfields (R62) -/

section Ctl

open BitVec (extractLsb'_append_extractLsb'_eq_extractLsb' extractLsb'_eq_self)

@[simp] theorem DrawMode.code_ofCode (b : BitVec 2) : (DrawMode.ofCode b).code = b := by
  revert b; decide

@[simp] theorem Rotation.code_ofCode (b : BitVec 2) : (Rotation.ofCode b).code = b := by
  revert b; decide

theorem FillMode.code_of_ofCode {b : BitVec 3} {fill : FillMode}
    (h : FillMode.ofCode b = some fill) : fill.code = b := by
  revert b; cases fill <;> decide

/-- A byte has no bit from `k` on just when it is less than `2 ^ k`. -/
theorem and_highMask_eq_zero_iff (x : Byte) (k : Nat) :
    x &&& (BitVec.allOnes 8 <<< k) = 0#8 ↔ x.toNat < 2 ^ k := by
  have hle : x.toNat / 2 ^ k * 2 ^ k ≤ x.toNat := Nat.div_mul_le_self _ _
  have hval : (x &&& (BitVec.allOnes 8 <<< k)).toNat = x.toNat / 2 ^ k * 2 ^ k := by
    rw [← BitVec.shiftLeft_ushiftRight, BitVec.toNat_shiftLeft, BitVec.toNat_ushiftRight,
      Nat.shiftRight_eq_div_pow, Nat.shiftLeft_eq, Nat.mod_eq_of_lt (hle.trans_lt x.isLt)]
  rw [← BitVec.toNat_inj, hval, ← Nat.div_eq_zero_iff_lt (Nat.two_pow_pos k)]
  simp

/-- The reserved bits of a CTL byte that holds MODE only. -/
theorem and_252_eq_zero_iff (x : Byte) : x &&& 252#8 = 0#8 ↔ x.toNat < 4 :=
  and_highMask_eq_zero_iff x 2

/-- The reserved bits of FRECT's CTL byte. -/
theorem and_224_eq_zero_iff (x : Byte) : x &&& 224#8 = 0#8 ↔ x.toNat < 32 :=
  and_highMask_eq_zero_iff x 5

/-- The reserved bits of a blit's CTL byte. -/
theorem and_192_eq_zero_iff (x : Byte) : x &&& 192#8 = 0#8 ↔ x.toNat < 64 :=
  and_highMask_eq_zero_iff x 6

/-- A subfield from bit `k` on is 0 in a byte less than `2 ^ k`. -/
theorem extractLsb'_eq_zero_of_lt {x : Byte} {k : Nat} (n : Nat) (h : x.toNat < 2 ^ k) :
    x.extractLsb' k n = 0#n :=
  BitVec.eq_of_toNat_eq (by simp [Nat.shiftRight_eq_zero _ _ h])

theorem ofBool_getLsbD (x : Byte) (i : Nat) : BitVec.ofBool (x.getLsbD i) = x.extractLsb' i 1 := by
  ext j hj
  obtain rfl : j = 0 := by omega
  simp

/-- Bits 1:0 are all of a CTL byte whose reserved bits are 0. -/
theorem ctlMode_ofCode {x : Byte} (h : x &&& 252#8 = 0#8) :
    ctlMode (DrawMode.ofCode (x.extractLsb' 0 2)) = x := by
  rw [ctlMode, DrawMode.code_ofCode,
    ← extractLsb'_eq_zero_of_lt 6 ((and_highMask_eq_zero_iff x 2).1 h)]
  exact (extractLsb'_append_extractLsb'_eq_extractLsb' rfl).trans extractLsb'_eq_self

/-- FILL and MODE are all of FRECT's CTL byte when its reserved bits are 0. -/
theorem ctlFill_ofCode {x : Byte} {fill : FillMode} (h : x &&& 224#8 = 0#8)
    (hfill : FillMode.ofCode (x.extractLsb' 2 3) = some fill) :
    ctlFill fill (DrawMode.ofCode (x.extractLsb' 0 2)) = x := by
  rw [ctlFill, DrawMode.code_ofCode, FillMode.code_of_ofCode hfill,
    ← extractLsb'_eq_zero_of_lt 3 ((and_highMask_eq_zero_iff x 5).1 h),
    extractLsb'_append_extractLsb'_eq_extractLsb' (start₁ := 2) (len₁ := 3) rfl]
  exact (extractLsb'_append_extractLsb'_eq_extractLsb' rfl).trans extractLsb'_eq_self

/-- INV, MIR, ROT and MODE are all of a blit's CTL byte when its reserved bits are 0. -/
theorem ctlBlit_ofCode {x : Byte} (h : x &&& 192#8 = 0#8) :
    ctlBlit (ctlXf x) (DrawMode.ofCode (x.extractLsb' 0 2)) = x := by
  rw [ctlBlit, ctlXf, DrawMode.code_ofCode, Rotation.code_ofCode, ofBool_getLsbD, ofBool_getLsbD,
    ← extractLsb'_eq_zero_of_lt 2 ((and_highMask_eq_zero_iff x 6).1 h),
    extractLsb'_append_extractLsb'_eq_extractLsb' (start₁ := 5) (len₁ := 1) rfl,
    extractLsb'_append_extractLsb'_eq_extractLsb' (start₁ := 4) (len₁ := 1) rfl,
    extractLsb'_append_extractLsb'_eq_extractLsb' (start₁ := 2) (len₁ := 2) rfl]
  exact (extractLsb'_append_extractLsb'_eq_extractLsb' rfl).trans extractLsb'_eq_self

/-- FILL 6 and 7 are reserved (R68). -/
theorem exists_fillMode_iff {x : Byte} (h : x.toNat < 32) :
    (∃ fill, FillMode.ofCode (x.extractLsb' 2 3) = some fill) ↔ x.toNat / 4 ≤ 5 := by
  have hlegal : ∀ b, (FillMode.ofCode b).isSome ↔ b.toNat ≤ 5 := by decide
  have hfield : (x.extractLsb' 2 3).toNat = x.toNat / 4 := by
    rw [BitVec.extractLsb'_toNat, Nat.shiftRight_eq_div_pow]
    omega
  rw [← Option.isSome_iff_exists, hlegal, hfield]

end Ctl

/-! ## What a command word decodes to (R61, R66, R70) -/

/-- OP has no row, or is one of the twelve opcodes (R66, R70 a). -/
theorem op_cases (op : Byte) :
    (op = 0#8 ∨ 12 < op.toNat) ∨ op = 1#8 ∨ op = 2#8 ∨ op = 3#8 ∨ op = 4#8 ∨ op = 5#8 ∨ op = 6#8 ∨
      op = 7#8 ∨ op = 8#8 ∨ op = 9#8 ∨ op = 10#8 ∨ op = 11#8 ∨ op = 12#8 := by
  bv_omega

/-- The two bytes of LEN are its quotient and remainder by 256. -/
theorem headerBytes_len (op ctl a b c d hi lo : Byte) :
    headerBytes op ctl a b c d (256 * hi.toNat + lo.toNat) = [op, ctl, a, b, c, d, hi, lo] := by
  have hlo : lo.toNat < 256 := lo.isLt
  have hquot : (256 * hi.toNat + lo.toNat) / 256 = hi.toNat := by omega
  have hrem : (256 * hi.toNat + lo.toNat) % 256 = lo.toNat := by omega
  rw [headerBytes, hquot, hrem, BitVec.ofNat_toNat, BitVec.ofNat_toNat, BitVec.setWidth_eq,
    BitVec.setWidth_eq]

/-- A decoder row accepts just when its condition holds. -/
theorem ite_ok_iff {p : Prop} [Decidable p] {i j : Instr} {why : IllegalHeader} :
    (if p then Except.ok i else .error why) = .ok j ↔ p ∧ i = j := by
  split_ifs with hp <;> simp [hp]

section Header

open Machine (LegalHeader)

variable (h0 h1 h2 h3 h4 h5 h6 h7 : Byte) (pay : List Byte)

/-- FRECT's row accepts just when its reserved bits are 0 and FILL is not reserved (R68, R73). -/
theorem decodeCommand_frect_iff {i : Instr} :
    decodeCommand (headerWord 7#8 h1 h2 h3 h4 h5 h6 h7) pay = .ok i ↔
      (h1 &&& 224#8 = 0#8 ∧ h6 = 0#8 ∧ h7 = 0#8) ∧
        ∃ fill, FillMode.ofCode (h1.extractLsb' 2 3) = some fill ∧
          .frect h2 h3 h4 h5 fill (DrawMode.ofCode (h1.extractLsb' 0 2)) = i := by
  rw [decodeCommand_frect]
  cases FillMode.ofCode (h1.extractLsb' 2 3) with
  | none => split_ifs <;> simp
  | some fill => simp [ite_ok_iff]

/-- The masks of R66 accept exactly the headers that are legal field by field (R64, R70). -/
theorem exists_decodeCommand_iff :
    (∃ i, decodeCommand (headerWord h0 h1 h2 h3 h4 h5 h6 h7) pay = .ok i) ↔
      LegalHeader h0 h1 h2 h3 h4 h5 (256 * h6.toNat + h7.toNat) := by
  have hlen : 256 * h6.toNat + h7.toNat = 0 ↔ h6 = 0#8 ∧ h7 = 0#8 := by bv_omega
  generalize 256 * h6.toNat + h7.toNat = len at hlen ⊢
  rcases op_cases h0 with h | rfl | rfl | rfl | rfl | rfl | rfl | rfl | rfl | rfl | rfl | rfl | rfl
  · have hno : ¬LegalHeader h0 h1 h2 h3 h4 h5 len := by
      unfold LegalHeader
      bv_omega
    simp [decodeCommand_unassigned h0 h1 h2 h3 h4 h5 h6 h7 pay h, hno]
  · simp [decodeCommand_clear, ite_ok_iff, LegalHeader, hlen]
  · simp [decodeCommand_setpx, ite_ok_iff, LegalHeader, hlen, and_252_eq_zero_iff]
  · simp [decodeCommand_getpx, ite_ok_iff, LegalHeader, hlen]
  · simp [decodeCommand_setb, ite_ok_iff, LegalHeader, hlen]
  · simp [decodeCommand_getb, ite_ok_iff, LegalHeader, hlen]
  · simp [decodeCommand_line, ite_ok_iff, LegalHeader, hlen, and_252_eq_zero_iff]
  · have hfill : ((h1.toNat < 32 ∧ h6 = 0#8 ∧ h7 = 0#8) ∧
        ∃ fill, FillMode.ofCode (h1.extractLsb' 2 3) = some fill) ↔
          h1.toNat < 32 ∧ h1.toNat / 4 ≤ 5 ∧ h6 = 0#8 ∧ h7 = 0#8 := by
      rw [and_right_comm, and_congr_right exists_fillMode_iff, and_assoc]
    simpa [decodeCommand_frect_iff, LegalHeader, hlen, and_224_eq_zero_iff] using hfill
  · simp [decodeCommand_pchar, ite_ok_iff, LegalHeader, hlen, and_252_eq_zero_iff]
  · simp [decodeCommand_pstr, ite_ok_iff, LegalHeader, and_252_eq_zero_iff]
  · simp [decodeCommand_blitp, ite_ok_iff, LegalHeader, and_192_eq_zero_iff]
  · simp [decodeCommand_blits, ite_ok_iff, LegalHeader, and_192_eq_zero_iff]
  · simp [decodeCommand_flush, ite_ok_iff, LegalHeader, hlen]

variable {h0 h1 h2 h3 h4 h5 h6 h7 pay}

/-- What a command word and its payload decode to has that header and that payload as its packet:
every bit that is not an operand is one that the row checked (R64, R70). -/
theorem encodeHeader_of_decodeCommand {i : Instr} (hpay : pay.length = 256 * h6.toNat + h7.toNat)
    (h : decodeCommand (headerWord h0 h1 h2 h3 h4 h5 h6 h7) pay = .ok i) :
    encodeHeader i = headerBytes h0 h1 h2 h3 h4 h5 pay.length ∧ i.payload = pay := by
  have hnil : h6 = 0#8 → h7 = 0#8 → pay = [] := by
    rintro rfl rfl
    exact List.length_eq_zero_iff.1 hpay
  rcases op_cases h0 with hop | rfl | rfl | rfl | rfl | rfl | rfl | rfl | rfl | rfl | rfl | rfl | rfl
  · rw [decodeCommand_unassigned h0 h1 h2 h3 h4 h5 h6 h7 pay hop] at h
    cases h
  · rw [decodeCommand_clear, ite_ok_iff] at h
    obtain ⟨⟨hctl, ha, hb, hc, hd, hhi, hlo⟩, rfl⟩ := h
    simp [encodeHeader, Instr.payload, hnil hhi hlo, hctl, ha, hb, hc, hd]
  · rw [decodeCommand_setpx, ite_ok_iff] at h
    obtain ⟨⟨hctl, hd, hhi, hlo⟩, rfl⟩ := h
    simp [encodeHeader, Instr.payload, hnil hhi hlo, hd, ctlMode_ofCode hctl]
  · rw [decodeCommand_getpx, ite_ok_iff] at h
    obtain ⟨⟨hctl, hc, hd, hhi, hlo⟩, rfl⟩ := h
    simp [encodeHeader, Instr.payload, hnil hhi hlo, hctl, hc, hd]
  · rw [decodeCommand_setb, ite_ok_iff] at h
    obtain ⟨⟨hctl, hd, hhi, hlo⟩, rfl⟩ := h
    simp [encodeHeader, Instr.payload, hnil hhi hlo, hctl, hd]
  · rw [decodeCommand_getb, ite_ok_iff] at h
    obtain ⟨⟨hctl, hc, hd, hhi, hlo⟩, rfl⟩ := h
    simp [encodeHeader, Instr.payload, hnil hhi hlo, hctl, hc, hd]
  · rw [decodeCommand_line, ite_ok_iff] at h
    obtain ⟨⟨hctl, hhi, hlo⟩, rfl⟩ := h
    simp [encodeHeader, Instr.payload, hnil hhi hlo, ctlMode_ofCode hctl]
  · rw [decodeCommand_frect_iff] at h
    obtain ⟨⟨hctl, hhi, hlo⟩, fill, hfill, rfl⟩ := h
    simp [encodeHeader, Instr.payload, hnil hhi hlo, ctlFill_ofCode hctl hfill]
  · rw [decodeCommand_pchar, ite_ok_iff] at h
    obtain ⟨⟨hctl, hd, hhi, hlo⟩, rfl⟩ := h
    simp [encodeHeader, Instr.payload, hnil hhi hlo, hd, ctlMode_ofCode hctl]
  · rw [decodeCommand_pstr, ite_ok_iff] at h
    obtain ⟨⟨hctl, hc, hd⟩, rfl⟩ := h
    simp [encodeHeader, Instr.payload, hc, hd, ctlMode_ofCode hctl]
  · rw [decodeCommand_blitp, ite_ok_iff] at h
    obtain ⟨hctl, rfl⟩ := h
    simp [encodeHeader, Instr.payload, ctlBlit_ofCode hctl]
  · rw [decodeCommand_blits, ite_ok_iff] at h
    obtain ⟨⟨hctl, hc, hd⟩, rfl⟩ := h
    simp [encodeHeader, Instr.payload, hc, hd, ctlBlit_ofCode hctl]
  · rw [decodeCommand_flush, ite_ok_iff] at h
    obtain ⟨⟨hctl, ha, hb, hc, hd, hhi, hlo⟩, rfl⟩ := h
    simp [encodeHeader, Instr.payload, hnil hhi hlo, hctl, ha, hb, hc, hd]

/-- Only the three commands with a payload have a LEN that is not 0 (R64). -/
theorem legalHeader_len {op ctl a b c d : Byte} {len : Nat} (h : LegalHeader op ctl a b c d len)
    (hop : ¬(op.toNat = 9 ∨ op.toNat = 10 ∨ op.toNat = 11)) : len = 0 := by
  unfold LegalHeader at h
  omega

end Header

/-! ## The two round trips (R60 to R73) -/

/-- Settles O1: a command's header and payload are read back as the command. -/
theorem decodeOfEncode : Obligations.DecodeOfEncode :=
  fun _ rest h => decode_encode h rest

/-- A stream that starts with a command holds its header, and then at least LEN bytes of which the
first LEN are the payload (R63). -/
theorem exists_header_of_decode {bs rest : List Byte} {i : Instr}
    (h : decode bs = .command i rest) :
    ∃ h0 h1 h2 h3 h4 h5 h6 h7 tl, bs = h0 :: h1 :: h2 :: h3 :: h4 :: h5 :: h6 :: h7 :: tl ∧
      256 * h6.toNat + h7.toNat ≤ tl.length ∧
      decodeCommand (headerWord h0 h1 h2 h3 h4 h5 h6 h7) (tl.take (256 * h6.toNat + h7.toNat)) =
        .ok i ∧
      rest = tl.drop (256 * h6.toNat + h7.toNat) := by
  match bs, h with
  | h0 :: h1 :: h2 :: h3 :: h4 :: h5 :: h6 :: h7 :: tl, h =>
    rw [decode_cons] at h
    split_ifs at h with hlen
    rw [decodePacket] at h
    split at h
    next hcmd =>
      cases h
      exact ⟨h0, h1, h2, h3, h4, h5, h6, h7, tl, rfl, Nat.not_lt.1 hlen, hcmd, rfl⟩
    next => cases h

/-- Settles O2: the operands are cut out of the header and the row checks every other bit, so that
the command's packet is the one that was read. -/
theorem encodeOfDecode : Obligations.EncodeOfDecode := by
  intro bs i rest h
  obtain ⟨h0, h1, h2, h3, h4, h5, h6, h7, tl, rfl, hlen, hcmd, rfl⟩ := exists_header_of_decode h
  have hpay : (tl.take (256 * h6.toNat + h7.toNat)).length = 256 * h6.toNat + h7.toNat :=
    List.length_take_of_le hlen
  obtain ⟨hheader, hpayload⟩ := encodeHeader_of_decodeCommand hpay hcmd
  rw [hpay, headerBytes_len] at hheader
  constructor
  · have hhi : h6.toNat < 256 := h6.isLt
    have hlo : h7.toNat < 256 := h7.isLt
    rw [wellFormed_iff, hpayload, hpay, maxLen]
    omega
  · rw [encode, hheader, hpayload, List.append_assoc, List.take_append_drop]
    rfl

/-- A stream starts with a command just when it starts with the packet of a well-formed one. -/
theorem decode_eq_command_iff {bs rest : List Byte} {i : Instr} :
    decode bs = .command i rest ↔ WellFormed i = true ∧ bs = encode i ++ rest :=
  ⟨encodeOfDecode bs i rest, fun ⟨hwf, hbs⟩ => hbs ▸ decodeOfEncode i rest hwf⟩

/-- Settles O3: each written-out packet is the encoding of its command. -/
theorem writtenOutPacketsDecode : Obligations.WrittenOutPacketsDecode := by
  refine ⟨?_, ?_, ?_, ?_, ?_, ?_, ?_, ?_, ?_, ?_, ?_, ?_⟩ <;>
    exact decode_eq_command_iff.2 ⟨rfl, rfl⟩

end Sys2Proof

namespace Sys2Proof.Machine

/-! ## Illegal headers (R70) -/

/-- Settles O6: the decoder accepts exactly the legal headers, and takes LEN payload bytes with a
header of either kind. -/
theorem illegalHeaders : Obligations.IllegalHeaders := by
  intro s h0 h1 h2 h3 h4 h5 h6 h7 tl hin hlen
  have hdec := decode_cons h0 h1 h2 h3 h4 h5 h6 h7 tl
  rw [if_neg (Nat.not_lt.2 hlen), ← hin, decodePacket] at hdec
  have hiff := exists_decodeCommand_iff h0 h1 h2 h3 h4 h5 h6 h7
    (tl.take (256 * h6.toNat + h7.toNat))
  constructor
  · intro hlegal
    obtain ⟨i, hcmd⟩ := hiff.2 hlegal
    obtain ⟨-, hpayload⟩ := encodeHeader_of_decodeCommand (List.length_take_of_le hlen) hcmd
    rw [hcmd] at hdec
    refine ⟨i, hdec, ?_⟩
    split_ifs with hop
    · exact hpayload
    · rw [hpayload, legalHeader_len hlegal hop, List.take_zero]
  · intro hillegal
    cases hcmd : decodeCommand (headerWord h0 h1 h2 h3 h4 h5 h6 h7)
        (tl.take (256 * h6.toNat + h7.toNat)) with
    | ok i => exact absurd (hiff.1 ⟨i, hcmd⟩) hillegal
    | error why =>
      rw [hcmd] at hdec
      exact step_of_illegal hdec

/-! ## The transform (R153) -/

/-- The mirror of a source column, when MIR is set. -/
def mirrorCol (mir : Bool) (w x : Nat) : Nat := if mir then w - 1 - x else x

/-- The rotation that undoes a rotation. -/
def inverseRotation : Rotation → Rotation
  | .r0 => .r0
  | .r90 => .r270
  | .r180 => .r180
  | .r270 => .r90

theorem inverseRotation_inverseRotation (rot : Rotation) :
    inverseRotation (inverseRotation rot) = rot := by
  cases rot <;> rfl

section Transform

variable {w h x y : Nat} (rot : Rotation) (mir : Bool)

theorem mirrorCol_lt (hx : x < w) : mirrorCol mir w x < w := by
  cases mir with
  | false => exact hx
  | true => exact (show w - 1 - x < w by omega)

theorem mirrorCol_mirrorCol (hx : x < w) : mirrorCol mir w (mirrorCol mir w x) = x := by
  cases mir with
  | false => rfl
  | true => exact (show w - 1 - (w - 1 - x) = x by omega)

/-- The transform mirrors first and rotates then. -/
theorem xform_eq_rotate_mirror (w h x y : Nat) :
    xform rot mir w h x y = xform rot false w h (mirrorCol mir w x) y := rfl

/-- Rotating back gives the rectangle its first size again. -/
theorem xformSize_inverseRotation (w h : Nat) :
    xformSize (inverseRotation rot) (xformSize rot w h).1 (xformSize rot w h).2 = (w, h) := by
  cases rot <;> rfl

/-- A rotation stays in the destination rectangle. -/
theorem rotate_lt (hx : x < w) (hy : y < h) :
    (xform rot false w h x y).1 < (xformSize rot w h).1 ∧
      (xform rot false w h x y).2 < (xformSize rot w h).2 := by
  cases rot <;> simp [xform, xformSize] <;> omega

/-- The inverse rotation, on the destination rectangle, undoes a rotation. -/
theorem inverseRotation_rotate (hx : x < w) (hy : y < h) :
    xform (inverseRotation rot) false (xformSize rot w h).1 (xformSize rot w h).2
      (xform rot false w h x y).1 (xform rot false w h x y).2 = (x, y) := by
  cases rot <;> simp [xform, xformSize, inverseRotation] <;> omega

end Transform

/-- Every position of the destination rectangle is the rotation of a source position. -/
theorem exists_rotate_eq (rot : Rotation) {w h xd yd : Nat} (hxd : xd < (xformSize rot w h).1)
    (hyd : yd < (xformSize rot w h).2) :
    ∃ x y, x < w ∧ y < h ∧ xform rot false w h x y = (xd, yd) := by
  have hlt := rotate_lt (inverseRotation rot) hxd hyd
  have hback := inverseRotation_rotate (inverseRotation rot) hxd hyd
  rw [xformSize_inverseRotation] at hlt hback
  rw [inverseRotation_inverseRotation] at hback
  exact ⟨_, _, hlt.1, hlt.2, hback⟩

/-- Settles O53: mirroring a row is its own inverse, and each rotation has an inverse rotation, so
both parts of the transform are bijections. -/
theorem transformIsBijection : Obligations.TransformIsBijection := by
  intro rot mir w h
  refine ⟨?inside, ?injective, ?onto, ?compose⟩
  case inside =>
    intro x y hx hy
    exact rotate_lt rot (mirrorCol_lt mir hx) hy
  case injective =>
    intro x y x' y' hx hy hx' hy' heq
    rw [xform_eq_rotate_mirror, xform_eq_rotate_mirror rot mir w h x'] at heq
    have hback := inverseRotation_rotate rot (mirrorCol_lt mir hx) hy
    rw [heq, inverseRotation_rotate rot (mirrorCol_lt mir hx') hy'] at hback
    obtain ⟨hcol, hrow⟩ := Prod.mk.inj hback
    refine ⟨?_, hrow.symm⟩
    rw [← mirrorCol_mirrorCol mir hx, ← hcol, mirrorCol_mirrorCol mir hx']
  case onto =>
    intro xd yd hxd hyd
    obtain ⟨x, y, hx, hy, heq⟩ := exists_rotate_eq rot hxd hyd
    refine ⟨mirrorCol mir w x, y, mirrorCol_lt mir hx, hy, ?_⟩
    rw [xform_eq_rotate_mirror, mirrorCol_mirrorCol mir hx, heq]
  case compose =>
    intro x y _ hy
    refine ⟨rfl, rfl, rfl, ?_, rfl⟩
    have hrow : h - 1 - (h - 1 - y) = y := by omega
    simp [xform, hrow]

end Sys2Proof.Machine

/-! PROOFS. Direct access to pixels and bank bytes (spec/40_pixel_access.md R100 to R111): SetPixel
and GetPixel at the addressed pixel, the five direct access commands, the pixel and byte views of
FB, and the text that reads back byte by byte (spec/43_glyph.md R145). -/

namespace Sys2Proof.Machine

/-! ## The compositor and SetPixel (R102, R103) -/

/-- Settles O25: the two rows of the table for each mode, whatever the old bit. -/
theorem compositorTable : Obligations.CompositorTable := fun old =>
  ⟨rfl, rfl, Bool.or_true old, Bool.or_false old, Bool.bne_true old, Bool.bne_false old,
    Bool.and_false old, Bool.and_true old⟩

/-- Settles O26: the byte written is the case expression of R103, read bit by bit. -/
theorem setPixelWritesOneBit : Obligations.SetPixelWritesOneBit := by
  intro mode m col row value idx b
  have hidx : idx = pixelTarget col row := rfl
  refine ⟨fun j hj => ?_, fun a ha => ?_⟩
  · rw [setPixel_read, if_pos hidx]
    exact composeByte_getLsbD mode (m.read idx) (truthy value) hj
  · rw [setPixel_read, if_neg (hidx ▸ ha)]

/-- SetPixel composes the pixel it addresses. -/
theorem setPixel_pixel_target (mode : DrawMode) (m : Memory) (col row value : Nat) :
    (setPixel mode m col row value).pixel (wrapCol col) (wrapRow row) =
      compose mode (m.pixel (wrapCol col) (wrapRow row)) (truthy value) := by
  rw [setPixel_pixel mode m col row value (wrapCol_lt col), if_pos ⟨rfl, rfl, rfl⟩]

/-! ## SETPX and GETPX (R106 to R108) -/

theorem exec_setpx (col row value : Byte) (mode : DrawMode) (s : State) :
    exec (.setpx col row value mode) s =
      .next (draw mode [⟨col.toNat, row.toNat, value.toNat⟩] s) := rfl

/-- The one call of SETPX composes its pixel and nothing else. -/
theorem setpx_drawnCells (col row value : Byte) (mode : DrawMode) (m : Memory) :
    DrawnCells mode (fun x y v => x = col.toNat ∧ y = row.toNat ∧ v = decide (value ≠ 0)) m
      (plotAll mode m [⟨col.toNat, row.toNat, value.toNat⟩]) := by
  refine drawnCells_of_distinct mode m (List.pairwise_singleton _ _) fun x y v => ?_
  simp only [List.mem_singleton, exists_eq_left, truthy_byte, eq_comm]

/-- Settles O27, from the one call of SETPX. -/
theorem setpxResult : Obligations.SetpxResult := fun col row value mode s =>
  ⟨_, exec_setpx col row value mode s, draw_okDrawing s _ _,
    setpx_drawnCells col row value mode s.fb⟩

/-- GetPixel is the addressed pixel, left in its place in the byte (R104). -/
theorem getPixel_eq (m : Memory) (col row : Nat) :
    getPixel m col row =
      if m.pixel (wrapCol col) (wrapRow row) then 1#8 <<< pixelTargetBit row else 0#8 :=
  and_bit_eq _ (pixelTargetBit_lt row)

theorem getPixel_eq_zero_iff (m : Memory) (col row : Nat) :
    getPixel m col row = 0#8 ↔ m.pixel (wrapCol col) (wrapRow row) = false := by
  rw [getPixel_eq]
  cases m.pixel (wrapCol col) (wrapRow row) with
  | false => simp
  | true => simpa using bit_ne_zero (pixelTargetBit_lt row)

/-- Settles O29. -/
theorem getpxResult : Obligations.GetpxResult := fun col row s =>
  ⟨_, exec_getpx col row s, rfl, getPixel_eq s.fb col.toNat row.toNat⟩

/-- A pixel of value 0 drawn in or mode changes no byte. -/
theorem setPixel_or_zero_read (m : Memory) (col row a : Nat) :
    (setPixel .or m col row 0).read a = m.read a := by
  rw [setPixel_read]
  exact ite_self _

/-- Settles O28: a query after a write sees the composed pixel; xor twice and or with 0 restore
every byte; no other pixel is composed. -/
theorem setpxLaws : Obligations.SetpxLaws := by
  intro col row s
  refine ⟨⟨_, _, exec_setpx col row 1 .set s, exec_getpx col row _, ?readsSet⟩,
    ⟨_, _, exec_setpx col row 0 .set s, exec_getpx col row _, ?readsClear⟩,
    ⟨_, _, exec_setpx col row 1 .xor s, exec_setpx col row 1 .xor _,
      plotAll_xor_twice_read s.fb _⟩,
    ⟨_, exec_setpx col row 0 .or s, setPixel_or_zero_read s.fb col.toNat row.toNat⟩,
    fun value mode => ⟨_, exec_setpx col row value mode s, ?others⟩⟩
  case readsSet =>
    refine mt (getPixel_eq_zero_iff _ _ _).1 (ne_false_of_eq_true ?_)
    exact setPixel_pixel_target .set s.fb col.toNat row.toNat 1
  case readsClear =>
    refine (getPixel_eq_zero_iff _ _ _).2 ?_
    exact setPixel_pixel_target .set s.fb col.toNat row.toNat 0
  case others =>
    intro c r hc hr hne
    refine (setpx_drawnCells col row value mode s.fb).miss c r hc hr ?_
    rintro x y v ⟨rfl, rfl, -⟩ ⟨rfl, rfl⟩
    exact hne ⟨rfl, rfl⟩

/-! ## SETB and CLEAR (R105, R109) -/

/-- Settles O30. -/
theorem setbResult : Obligations.SetbResult := fun col bank byte s =>
  ⟨_, exec_setb col bank byte s, complete_fb_okDrawing s _, Memory.read_write_same _ _ _,
    fun _ ha => Memory.read_write_other _ _ ha⟩

theorem exec_clear (s : State) :
    exec .clear s = .next (complete { s with fb := Memory.cleared }) := rfl

/-- Settles O32. -/
theorem clearResult : Obligations.ClearResult := fun s =>
  ⟨_, exec_clear s, complete_fb_okDrawing s _, Memory.wf_cleared,
    fun _ hi => Memory.read_cleared hi⟩

/-- Settles O20: the step that runs CLEAR writes all of FB and STATUS, so both runs go on from the
same state. -/
theorem clearForgetsFramebuffer : Obligations.ClearForgetsFramebuffer := by
  intro s m st rest n hdec
  have hdec' : decode { s with fb := m, status := st }.input = .command .clear rest := hdec
  have hstep : step s = step { s with fb := m, status := st } := by
    rw [step_of_command hdec, step_of_command hdec', exec_clear, exec_clear]
    rfl
  rw [run_succ, run_succ, hstep]

/-! ## Calls that go to distinct pixels -/

theorem wrapCol_eq_mod (n : Nat) : wrapCol n = n % 84 := rfl

theorem wrapRow_eq_mod (n : Nat) : wrapRow n = n % 48 := rfl

/-- Offsets below the width stay apart when they wrap. -/
theorem wrapCol_add_inj {c i j : Nat} (hi : i < 84) (hj : j < 84)
    (h : wrapCol (c + i) = wrapCol (c + j)) : i = j := by
  rw [wrapCol_eq_mod, wrapCol_eq_mod] at h
  omega

/-- Offsets below the height stay apart when they wrap. -/
theorem wrapRow_add_inj {r i j : Nat} (hi : i < 48) (hj : j < 48)
    (h : wrapRow (r + i) = wrapRow (r + j)) : i = j := by
  rw [wrapRow_eq_mod, wrapRow_eq_mod] at h
  omega

/-- Two calls go to different pixels once wrapped. -/
abbrev DistinctPixels (p q : Plot) : Prop :=
  ¬(wrapCol p.col = wrapCol q.col ∧ wrapRow p.row = wrapRow q.row)

/-- Calls at distinct row offsets below the height go to distinct pixels. -/
theorem pairwise_distinctPixels_rows (col row : Nat) (value : Nat → Nat) {l : List Nat}
    (hnodup : l.Nodup) (hlt : ∀ b ∈ l, b < 48) :
    (l.map (fun b => (⟨col, row + b, value b⟩ : Plot))).Pairwise DistinctPixels :=
  List.pairwise_map.2 (hnodup.imp_of_mem fun hb hb' hne hpixel =>
    hne (wrapRow_add_inj (hlt _ hb) (hlt _ hb') hpixel.2))

/-! ## The pixel and byte views of FB (R111) -/

/-- A pixel lies in the bank byte of its column and bank. -/
theorem pixelTarget_eq_bankTarget (col : Nat) {row : Nat} (hrow : row < 48) :
    pixelTarget col row = bankTarget col (row / 8) := by
  have hbank : wrapBank (row / 8) = row / 8 := wrapBank_of_lt (by omega)
  rw [pixelTarget, bankTarget, wrapRow_of_lt hrow, hbank, pixelIndex, bankIndex]

theorem bankTarget_of_lt {c k : Nat} (hc : c < 84) (hk : k < 6) : bankTarget c k = c + k * 84 := by
  rw [bankTarget, wrapCol_of_lt hc, wrapBank_of_lt hk, bankIndex]

/-- Row `b` of a bank byte is its bit `b` (R21, R42). -/
theorem Memory.pixel_of_bank (m : Memory) (c k : Nat) {b : Nat} (hb : b < 8) :
    m.pixel c (8 * k + b) = (m.read (c + k * 84)).getLsbD b := by
  rw [Memory.pixel, pixelIndex, pixelBit, Nat.mul_add_div (by decide), Nat.mul_add_mod,
    Nat.div_eq_of_lt hb, Nat.mod_eq_of_lt hb, Nat.add_zero]

/-- The SetPixel calls that hand the bits of `v` to the eight rows of a bank byte, the rows in a
given order. -/
def bytePlots (c k : Nat) (v : Byte) (order : List Nat) : List Plot :=
  order.map (fun b => ⟨c, 8 * k + b, (v.getLsbD b).toNat⟩)

/-- A byte combined with the byte `v` bit by bit, as the mode says. -/
def composeBits (mode : DrawMode) (old v : Byte) : Byte :=
  match mode with
  | .set => v
  | .or => old ||| v
  | .xor => old ^^^ v
  | .clear => old &&& ~~~v

theorem composeBits_getLsbD (mode : DrawMode) (old v : Byte) {b : Nat} (hb : b < 8) :
    (composeBits mode old v).getLsbD b = compose mode (old.getLsbD b) (v.getLsbD b) := by
  cases mode <;> simp [composeBits, compose, hb]

section BytePlots

variable {c k : Nat} {order : List Nat} (v : Byte) (mode : DrawMode) (m : Memory)

/-- Each row of the byte is composed once with its bit, whatever the order of the calls. -/
theorem bytePlots_drawnCells (horder : order.Perm (List.range 8)) :
    DrawnCells mode (fun x y bit => x = c ∧ ∃ b < 8, y = 8 * k + b ∧ bit = v.getLsbD b) m
      (plotAll mode m (bytePlots c k v order)) := by
  have hmem : ∀ b, b ∈ order ↔ b < 8 := fun b => horder.mem_iff.trans List.mem_range
  refine drawnCells_of_distinct mode m (pairwise_distinctPixels_rows c (8 * k) _
    (horder.nodup_iff.2 List.nodup_range) fun b hb => ?rows) fun x y bit => ?calls
  case rows => exact ((hmem b).1 hb).trans (by decide)
  case calls =>
    simp only [bytePlots, List.mem_map, hmem]
    constructor
    · rintro ⟨rfl, b, hb, rfl, rfl⟩
      exact ⟨_, ⟨b, hb, rfl⟩, rfl, rfl, truthy_toNat _⟩
    · rintro ⟨_, ⟨b, hb, rfl⟩, rfl, rfl, rfl⟩
      exact ⟨rfl, b, hb, rfl, truthy_toNat _⟩

/-- Eight SetPixel calls on the rows of a byte combine the whole byte and touch no other. -/
theorem plotAll_bytePlots_read (hc : c < 84) (hk : k < 6) (horder : order.Perm (List.range 8))
    (a : Nat) :
    (plotAll mode m (bytePlots c k v order)).read a =
      if a = c + k * 84 then composeBits mode (m.read a) v else m.read a := by
  obtain ⟨hit, -, bytes⟩ := bytePlots_drawnCells (c := c) v mode m horder
  split_ifs with ha
  · refine read_of_pixels _ _ fun b hb => ?_
    have hcell := hit c (8 * k + b) (v.getLsbD b) ⟨rfl, b, hb, rfl, rfl⟩
    have hcol : a % 84 = c := by omega
    have hbank : a / 84 = k := by omega
    rw [wrapCol_of_lt hc, wrapRow_of_lt (by omega), Memory.pixel_of_bank m c k hb, ← ha] at hcell
    rw [hcol, hbank, hcell, composeBits_getLsbD mode _ v hb]
  · refine bytes a ?_
    rintro x y bit ⟨rfl, b, hb, rfl, -⟩ rfl
    refine ha ?_
    rw [pixelTarget_eq_bankTarget x (by omega), bankTarget_of_lt hc (by omega)]
    omega

end BytePlots

/-- A program of SETPX commands leaves the FB of their SetPixel calls. -/
theorem execAll_setpx {α : Type} (mode : DrawMode) (col row value : α → Byte) (l : List α)
    (s : State) :
    ∃ u, execAll (l.map (fun x => .setpx (col x) (row x) (value x) mode)) s = .next u ∧
      u.fb = plotAll mode s.fb
        (l.map (fun x => ⟨(col x).toNat, (row x).toNat, (value x).toNat⟩)) := by
  induction l generalizing s with
  | nil => exact ⟨s, rfl, rfl⟩
  | cons x l ih =>
    obtain ⟨u, hrun, hfb⟩ := ih (draw mode [⟨(col x).toNat, (row x).toNat, (value x).toNat⟩] s)
    exact ⟨u, hrun, hfb⟩

/-- The operands of the eight SETPX commands are those of the calls in `bytePlots`. -/
theorem map_setpx_operands (c k v : Byte) {order : List Nat} (hk : k.toNat < 6)
    (horder : order.Perm (List.range 8)) :
    order.map (fun b => (⟨c.toNat, (BitVec.ofNat 8 (8 * k.toNat + b)).toNat,
      (BitVec.ofNat 8 (v.getLsbD b).toNat).toNat⟩ : Plot)) =
      bytePlots c.toNat k.toNat v order := by
  refine List.map_congr_left fun b hb => ?_
  have hb8 : b < 8 := List.mem_range.1 (horder.mem_iff.1 hb)
  have hbit : (v.getLsbD b).toNat ≤ 1 := Bool.toNat_le _
  rw [BitVec.toNat_ofNat, BitVec.toNat_ofNat, Nat.mod_eq_of_lt (by omega),
    Nat.mod_eq_of_lt (by omega)]

/-- Settles O33: a pixel's byte is its bank byte, and eight calls on the rows of a byte combine the
whole byte. -/
theorem byteIsEightPixels : Obligations.ByteIsEightPixels := by
  refine ⟨?query, ?setb, ?modes⟩
  case query =>
    intro col row s _ hrow
    refine ⟨_, _, exec_getpx col row s, exec_getb col _ s, ?_⟩
    have hbank : (BitVec.ofNat 8 (row.toNat / 8)).toNat = row.toNat / 8 := by
      rw [BitVec.toNat_ofNat]
      omega
    rw [answer_result, answer_result, getPixel, pixelTarget_eq_bankTarget _ hrow, hbank,
      pixelTargetBit, wrapRow_of_lt hrow, pixelBit]
  case setb =>
    intro c k v order s hc hk horder
    obtain ⟨u, hrun, hfb⟩ := execAll_setpx .set (fun _ => c)
      (fun b => BitVec.ofNat 8 (8 * k.toNat + b)) (fun b => BitVec.ofNat 8 (v.getLsbD b).toNat)
      order s
    refine ⟨_, u, exec_setb c k v s, hrun, fun a => ?_⟩
    rw [hfb, map_setpx_operands c k v hk horder,
      plotAll_bytePlots_read v .set s.fb hc hk horder, complete_fb, Memory.read_write,
      bankTarget_of_lt hc hk]
    rfl
  case modes =>
    intro mode m c k v order hc hk horder a
    cases mode <;> exact plotAll_bytePlots_read v _ m hc hk horder a

/-! ## Text (R140 to R145) -/

section Strings

variable (P : Config.Params)

/-- A glyph's forty cells are distinct pixels. -/
theorem glyphPlots_distinct (g col row : Nat) :
    (glyphPlots P g col row).Pairwise DistinctPixels := by
  refine List.pairwise_flatMap.2 ⟨fun i _ => ?column, ?columns⟩
  case column =>
    exact pairwise_distinctPixels_rows (col + i) row _ List.nodup_range
      fun b hb => (List.mem_range.1 hb).trans (by decide)
  case columns =>
    refine List.nodup_range.imp_of_mem fun {i i'} hi hi' hne p hp q hq hpixel => ?_
    obtain ⟨b, -, rfl⟩ := List.mem_map.1 hp
    obtain ⟨b', -, rfl⟩ := List.mem_map.1 hq
    have hlt : ∀ i ∈ List.range Config.glyphCols, i < 84 :=
      fun i hi => (List.mem_range.1 hi).trans (by decide)
    exact hne (wrapCol_add_inj (hlt i hi) (hlt i' hi') hpixel.1)

/-- The cells of a string are distinct pixels: the characters drawn are six columns apart and end
inside column 83. -/
theorem stringPlots_distinct (text : List Byte) (col row : Nat) :
    (stringPlots P text col row).Pairwise DistinctPixels := by
  refine List.pairwise_flatMap.2 ⟨fun _ _ => glyphPlots_distinct P _ _ _, ?_⟩
  have hindex : ((text.take (nprint (wrapCol col) text.length)).zipIdx).Pairwise
      (fun a b => a.2 < b.2) := by
    rw [← List.pairwise_map (f := Prod.snd) (R := (· < ·)), List.zipIdx_map_snd]
    exact List.pairwise_lt_range'
  have hfits : ∀ a ∈ (text.take (nprint (wrapCol col) text.length)).zipIdx,
      wrapCol col + 6 * a.2 + 6 ≤ 84 := fun a ha =>
    ((lt_nprint text.length a.2 (wrapCol_lt col)).1
      ((List.snd_lt_of_mem_zipIdx ha).trans_le (List.length_take_le _ _))).2
  refine hindex.imp_of_mem fun {a a'} ha ha' hlt p hp q hq hpixel => ?_
  obtain ⟨i, b, hi, -, rfl⟩ := (mem_glyphPlots P _ _ _ _).1 hp
  obtain ⟨i', b', hi', -, rfl⟩ := (mem_glyphPlots P _ _ _ _).1 hq
  have hcol : wrapCol (wrapCol col + 6 * a.2 + i) = wrapCol (wrapCol col + 6 * a'.2 + i') :=
    hpixel.1
  have hfit := hfits a ha
  have hfit' := hfits a' ha'
  rw [wrapCol_of_lt (n := wrapCol col + 6 * a.2 + i) (by omega),
    wrapCol_of_lt (n := wrapCol col + 6 * a'.2 + i') (by omega)] at hcol
  omega

/-- A string composes each cell of the characters that fit once, and nothing else (R142, R143). -/
theorem stringPlots_drawnCells (text : List Byte) (col row : Nat) (mode : DrawMode) (m : Memory) :
    DrawnCells mode
      (fun x y v => ∃ k ch i b, text[k]? = some ch ∧ wrapCol col + 6 * k + 6 ≤ 84 ∧ i < 5 ∧ b < 8 ∧
        x = wrapCol col + 6 * k + i ∧ y = row + b ∧ v = (P.font (glyphNumber ch) i).getLsbD b)
      m (plotAll mode m (stringPlots P text col row)) := by
  refine drawnCells_of_distinct mode m (stringPlots_distinct P text col row) fun x y v => ?_
  simp only [mem_stringPlots, mem_glyphPlots]
  constructor
  · rintro ⟨k, ch, i, b, hch, hfit, hi, hb, rfl, rfl, rfl⟩
    exact ⟨_, ⟨k, ch, hch, hfit, i, b, hi, hb, rfl⟩, rfl, rfl, truthy_masked _ hb⟩
  · rintro ⟨_, ⟨k, ch, hch, hfit, i, b, hi, hb, rfl⟩, rfl, rfl, rfl⟩
    exact ⟨k, ch, i, b, hch, hfit, hi, hb, rfl, rfl, truthy_masked _ hb⟩

/-- A string drawn at the origin in set mode leaves the glyph bytes of its characters, six bytes
apart. -/
theorem stringPlots_origin_read {text : List Byte} {k : Nat} {ch : Byte} (hch : text[k]? = some ch)
    (hfit : 6 * k + 6 ≤ 84) {i : Nat} (hi : i < 5) (m : Memory) :
    (plotAll .set m (stringPlots P text 0 0)).read (6 * k + i) = P.font (glyphNumber ch) i := by
  refine read_of_pixels _ _ fun b hb => ?_
  have hcol : (6 * k + i) % 84 = 6 * k + i := by omega
  have hbank : (6 * k + i) / 84 = 0 := by omega
  have h0 : wrapCol 0 = 0 := rfl
  have hcell := (stringPlots_drawnCells P text 0 0 .set m).hit (6 * k + i) b _
    ⟨k, ch, i, b, hch, by rwa [h0, Nat.zero_add], hi, hb, by rw [h0, Nat.zero_add],
      (Nat.zero_add b).symm, rfl⟩
  rw [wrapCol_of_lt (by omega), wrapRow_of_lt (by omega)] at hcell
  rw [hcol, hbank, Nat.mul_zero, Nat.zero_add, hcell]
  rfl

end Strings

/-- "Hello" as the characters of a PSTR payload. -/
def helloText : List Byte := [0x48, 0x65, 0x6C, 0x6C, 0x6F]

theorem helloText_printable : ∀ ch ∈ helloText, InFont ch := by decide

theorem helloText_toNat : helloText.map BitVec.toNat = [0x48, 0x65, 0x6C, 0x6C, 0x6F] := rfl

/-- Settles O48: each glyph column of the string is a byte of bank 0, whatever FB held. -/
theorem helloRoundTrip : Obligations.HelloRoundTrip := by
  refine ⟨fun _ => rfl, fun P s => ⟨_, _, exec_clear s,
    pstrWith_accepted P _ helloText_printable 0 0 .set, fun k i ch hch hi => ?_⟩⟩
  have hk : k < 5 := (List.getElem?_eq_some_iff.1 hch).1
  rw [← helloText_toNat, List.getElem?_map, Option.map_eq_some_iff] at hch
  obtain ⟨c, hc, rfl⟩ := hch
  have hcol : (BitVec.ofNat 8 (6 * k + i)).toNat = 6 * k + i := by
    rw [BitVec.toNat_ofNat]
    omega
  have haddr : bankTarget (BitVec.ofNat 8 (6 * k + i)).toNat (0 : Byte).toNat = 6 * k + i := by
    rw [hcol]
    exact bankTarget_of_lt (by omega) (by decide)
  refine ⟨_, exec_getb _ _ _, ?_⟩
  rw [answer_result, haddr, draw_fb]
  exact stringPlots_origin_read P hc (by omega) hi _

end Sys2Proof.Machine

/-! PROOFS. The line rasterizer (spec/41_line.md R121 to R124): how many steps each axis has taken
after `i` iterations, the cell and the error term this gives, and from these the shape of a line
and what LINE draws. -/

namespace Sys2Proof.Machine

/-! ## The steps an axis has taken -/

/-- The least error term at which StepMinor holds (R121), and what rounding subtracts to send halves
down. -/
def tieOffset (z : Bool) : Nat := if z then 0 else 1

theorem tieOffset_le (z : Bool) : tieOffset z ≤ 1 := by cases z <;> decide

theorem stepMinor_iff (z : Bool) (d : Int) : stepMinor z d = true ↔ (tieOffset z : Int) ≤ d := by
  cases z
  · exact decide_eq_true_iff
  · exact decide_eq_true_iff

/-- How many of the `delta` steps of an axis lie in the first `i` of `n` iterations: `i * delta / n`
rounded to the nearest integer, halves up when LINE_STEP_ON_ZERO and down otherwise. For the major
axis `delta = n`. -/
def stepsTaken (z : Bool) (n delta i : Nat) : Nat :=
  (2 * i * delta + n - tieOffset z) / (2 * n)

/-- The error term at the cell after `i` iterations (R121). -/
def errorAfter (z : Bool) (major minor i : Nat) : Int :=
  2 * minor * (i + 1) - major - 2 * major * stepsTaken z major minor i

section Steps
variable (z : Bool) {n delta i : Nat}

theorem stepsTaken_eq_iff (hn : 0 < n) (k : Nat) :
    stepsTaken z n delta i = k ↔
      2 * (n * k) + tieOffset z ≤ 2 * (i * delta) + n ∧
        2 * (i * delta) + n < 2 * (n * k) + 2 * n + tieOffset z := by
  have htie := tieOffset_le z
  rw [stepsTaken, Nat.div_eq_iff (by omega), mul_assoc 2 i, mul_comm k, mul_assoc 2 n]
  omega

theorem stepsTaken_zero : stepsTaken z n delta 0 = 0 := by
  have htie := tieOffset_le z
  rcases Nat.eq_zero_or_pos n with rfl | hn
  · exact Nat.div_zero _
  · rw [stepsTaken_eq_iff z hn, zero_mul, mul_zero]
    omega

/-- All steps are taken in `n` iterations. -/
theorem stepsTaken_last (h : delta ≤ n) : stepsTaken z n delta n = delta := by
  have htie := tieOffset_le z
  rcases Nat.eq_zero_or_pos n with rfl | hn
  · exact (Nat.div_zero _).trans (Nat.le_zero.1 h).symm
  · rw [stepsTaken_eq_iff z hn]
    omega

/-- The major axis steps in every iteration. -/
theorem stepsTaken_self (hi : i ≤ n) : stepsTaken z n n i = i := by
  have htie := tieOffset_le z
  rcases Nat.eq_zero_or_pos n with rfl | hn
  · exact (Nat.div_zero _).trans (Nat.le_zero.1 hi).symm
  · rw [stepsTaken_eq_iff z hn, mul_comm i n]
    omega

theorem stepsTaken_mono {j : Nat} (hij : i ≤ j) :
    stepsTaken z n delta i ≤ stepsTaken z n delta j := by
  unfold stepsTaken
  gcongr

theorem stepsTaken_le (h : delta ≤ n) (hi : i ≤ n) : stepsTaken z n delta i ≤ delta :=
  (stepsTaken_mono z hi).trans_eq (stepsTaken_last z h)

theorem errorAfter_eq (major minor : Nat) :
    errorAfter z major minor i =
      2 * ((i * minor : Nat) + minor - (major * stepsTaken z major minor i : Nat)) - major := by
  unfold errorAfter
  push_cast
  ring

/-- StepMinor holds exactly when the rounded slope rises in the next iteration. -/
theorem stepsTaken_succ (hn : 0 < n) (h : delta ≤ n) :
    stepsTaken z n delta (i + 1) =
      stepsTaken z n delta i + if stepMinor z (errorAfter z n delta i) then 1 else 0 := by
  obtain ⟨hlo, hhi⟩ := (stepsTaken_eq_iff z hn (delta := delta) (i := i) _).1 rfl
  rw [stepsTaken_eq_iff z hn, add_one_mul, mul_add]
  split_ifs with hstep <;> rw [stepMinor_iff, errorAfter_eq] at hstep
  · omega
  · omega

theorem stepsTaken_succ_eq_or (hn : 0 < n) (h : delta ≤ n) :
    stepsTaken z n delta (i + 1) = stepsTaken z n delta i ∨
      stepsTaken z n delta (i + 1) = stepsTaken z n delta i + 1 := by
  rw [stepsTaken_succ z hn h]
  split_ifs
  · exact .inr rfl
  · exact .inl rfl

/-- The error term is the remainder of the division by `2 * n` in `stepsTaken`, up to an offset. -/
theorem errorAfter_range (hn : 0 < n) (i : Nat) :
    2 * (delta : Int) - 2 * n ≤ errorAfter z n delta i ∧ errorAfter z n delta i ≤ 2 * delta := by
  have htie := tieOffset_le z
  obtain ⟨hlo, hhi⟩ := (stepsTaken_eq_iff z hn (delta := delta) (i := i) _).1 rfl
  rw [errorAfter_eq]
  omega

/-- On a diagonal the error term never moves. -/
theorem errorAfter_self (hi : i ≤ n) : errorAfter z n n i = n := by
  rw [errorAfter_eq, stepsTaken_self z hi, mul_comm i]
  omega

/-- The range of the error term for 8-bit coordinates (R123 g). The last unit on either side comes
from parity: the term is odd when `n = 255`. -/
theorem errorAfter_bounds (h : delta ≤ n) (hi : i ≤ n) (hbyte : n ≤ 255) :
    -509 ≤ errorAfter z n delta i ∧ errorAfter z n delta i ≤ 507 := by
  rcases h.eq_or_lt with rfl | hlt
  · rw [errorAfter_self z hi]
    omega
  · obtain ⟨hlo, hhi⟩ := errorAfter_range z (delta := delta) (Nat.zero_lt_of_lt hlt) i
    rw [errorAfter_eq] at *
    omega

end Steps

/-! ## The rasterizer's cursor -/

/-- One iteration of R121 as one formula in the number of minor steps, 0 or 1. -/
theorem LineCursor.advance_eq (z : Bool) (major minor : Nat) (sp sq : Int) (k : LineCursor) :
    k.advance z major minor sp sq =
      ⟨k.p + sp, k.q + sq * (if stepMinor z k.d then 1 else 0 : Nat),
        k.d + 2 * minor - 2 * major * (if stepMinor z k.d then 1 else 0 : Nat)⟩ := by
  rw [LineCursor.advance]
  split_ifs
  · simp [sub_add_eq_add_sub]
  · simp

/-- The cursor after `i` iterations, from the coordinates `p` and `q` of the first endpoint. -/
def cursorAfter (z : Bool) (major minor : Nat) (sp sq p q : Int) (i : Nat) : LineCursor :=
  ⟨p + sp * stepsTaken z major major i, q + sq * stepsTaken z major minor i,
    errorAfter z major minor i⟩

section Cursor
variable (z : Bool) {major minor : Nat} (sp sq p q : Int)

theorem cursorAfter_zero :
    cursorAfter z major minor sp sq p q 0 = ⟨p, q, 2 * minor - major⟩ := by
  simp [cursorAfter, errorAfter, stepsTaken_zero]

theorem advance_cursorAfter {i : Nat} (h : minor ≤ major) (hi : i < major) :
    (cursorAfter z major minor sp sq p q i).advance z major minor sp sq =
      cursorAfter z major minor sp sq p q (i + 1) := by
  have hmajor : stepsTaken z major major (i + 1) = i + 1 := stepsTaken_self z hi
  have hminor := stepsTaken_succ z (i := i) (Nat.zero_lt_of_lt hi) h
  simp only [LineCursor.advance_eq, cursorAfter, hmajor, stepsTaken_self z hi.le]
  generalize (if stepMinor z (errorAfter z major minor i) then 1 else 0 : Nat) = step at hminor ⊢
  simp only [errorAfter, hminor, LineCursor.mk.injEq]
  push_cast
  refine ⟨?_, ?_, ?_⟩ <;> ring

theorem lineCursors_cursorAfter (h : minor ≤ major) (n i : Nat) (hn : i + n ≤ major) :
    lineCursors z major minor sp sq n (cursorAfter z major minor sp sq p q i) =
      (List.range' i (n + 1)).map (cursorAfter z major minor sp sq p q) := by
  induction n generalizing i with
  | zero => rfl
  | succ n ih =>
    rw [lineCursors, advance_cursorAfter z sp sq p q h (by omega), ih (i + 1) (by omega)]
    rfl

/-- All cursors of a line. -/
theorem lineCursors_eq (h : minor ≤ major) :
    lineCursors z major minor sp sq major ⟨p, q, 2 * minor - major⟩ =
      (List.range (major + 1)).map (cursorAfter z major minor sp sq p q) := by
  rw [← cursorAfter_zero z sp sq p q, lineCursors_cursorAfter z sp sq p q h _ _ (by omega),
    List.range_eq_range']

end Cursor

/-! ## A coordinate on the way to the other endpoint -/

/-- The coordinate `k` steps from `a` towards `b`. -/
def towards (a b k : Nat) : Nat := (a + direction a b * k : Int).toNat

section Towards
variable {a b k : Nat}

@[simp] theorem towards_zero (a b : Nat) : towards a b 0 = a := by simp [towards]

theorem towards_cast (hk : k ≤ absDiff b a) : (towards a b k : Int) = a + direction a b * k := by
  unfold towards direction
  unfold absDiff at hk
  split_ifs <;> omega

@[simp] theorem towards_absDiff (a b : Nat) : towards a b (absDiff b a) = b := by
  have h := towards_cast (le_refl (absDiff b a))
  unfold absDiff direction at *
  split_ifs at h <;> omega

theorem towards_mem (hk : k ≤ absDiff b a) : min a b ≤ towards a b k ∧ towards a b k ≤ max a b := by
  have h := towards_cast hk
  unfold absDiff at hk
  unfold direction at h
  split_ifs at h <;> omega

theorem towards_eq_of_absDiff_eq_zero (h : absDiff b a = 0) (hk : k ≤ absDiff b a) :
    towards a b k = a := by
  obtain rfl : k = 0 := Nat.le_zero.1 (h ▸ hk)
  exact towards_zero a b

theorem towards_succ (hk : k + 1 ≤ absDiff b a) :
    (towards a b (k + 1) : Int) = towards a b k + direction a b := by
  rw [towards_cast hk, towards_cast (by omega)]
  push_cast
  ring

variable (z : Bool) {n i : Nat}

/-- One iteration moves the major axis by one step. -/
theorem towards_major_succ (h : absDiff b a = n) (hi : i < n) :
    (towards a b (stepsTaken z n (absDiff b a) (i + 1)) : Int) =
      towards a b (stepsTaken z n (absDiff b a) i) + direction a b := by
  rw [h, stepsTaken_self z hi, stepsTaken_self z hi.le, towards_succ (h ▸ hi)]

/-- One iteration moves either axis by at most one step. -/
theorem towards_minor_succ (h : absDiff b a ≤ n) (hi : i < n) :
    (towards a b (stepsTaken z n (absDiff b a) (i + 1)) : Int) =
        towards a b (stepsTaken z n (absDiff b a) i) ∨
      (towards a b (stepsTaken z n (absDiff b a) (i + 1)) : Int) =
        towards a b (stepsTaken z n (absDiff b a) i) + direction a b := by
  have hle := stepsTaken_le z h (Nat.succ_le_of_lt hi)
  rcases stepsTaken_succ_eq_or z (i := i) (Nat.zero_lt_of_lt hi) h with heq | heq
  · exact .inl (by rw [heq])
  · exact .inr (by rw [heq, towards_succ (heq ▸ hle)])

end Towards

/-! ## The cells of a line -/

/-- How often the body of R121's loop steps: the longer of the two distances. -/
abbrev lineIterations (c0 r0 c1 r1 : Nat) : Nat := max (absDiff c1 c0) (absDiff r1 r0)

/-- The cell of LinePoints after `i` iterations. Both axes are treated alike, so that it does not
say which one is the major axis. -/
def lineCell (z : Bool) (c0 r0 c1 r1 i : Nat) : Nat × Nat :=
  (towards c0 c1 (stepsTaken z (lineIterations c0 r0 c1 r1) (absDiff c1 c0) i),
    towards r0 r1 (stepsTaken z (lineIterations c0 r0 c1 r1) (absDiff r1 r0) i))

section Points
variable (z : Bool) (c0 r0 c1 r1 : Nat)

theorem lineTrace_eq :
    lineTrace z c0 r0 c1 r1 = (List.range (lineIterations c0 r0 c1 r1 + 1)).map fun i =>
      (c0 + direction c0 c1 * stepsTaken z (lineIterations c0 r0 c1 r1) (absDiff c1 c0) i,
        r0 + direction r0 r1 * stepsTaken z (lineIterations c0 r0 c1 r1) (absDiff r1 r0) i,
        errorAfter z (lineIterations c0 r0 c1 r1) (min (absDiff c1 c0) (absDiff r1 r0)) i) := by
  rw [lineTrace]
  split_ifs with h
  · rw [lineIterations, max_eq_left h.le, min_eq_right h.le, lineCursors_eq z _ _ _ _ h.le,
      List.map_map]
    rfl
  · have h' := Nat.le_of_not_lt h
    rw [lineIterations, max_eq_right h', min_eq_left h', lineCursors_eq z _ _ _ _ h', List.map_map]
    rfl

theorem linePoints_eq :
    linePoints z c0 r0 c1 r1 =
      (List.range (lineIterations c0 r0 c1 r1 + 1)).map (lineCell z c0 r0 c1 r1) := by
  rw [linePoints, lineTrace_eq, List.map_map]
  rfl

theorem linePoints_getElem? {i : Nat} (hi : i ≤ lineIterations c0 r0 c1 r1) :
    (linePoints z c0 r0 c1 r1)[i]? = some (lineCell z c0 r0 c1 r1 i) := by
  rw [linePoints_eq, List.getElem?_map, List.getElem?_range (Nat.lt_succ_of_le hi)]
  rfl

theorem linePoints_length : (linePoints z c0 r0 c1 r1).length = lineIterations c0 r0 c1 r1 + 1 := by
  rw [linePoints_eq, List.length_map, List.length_range]

theorem mem_linePoints {p : Nat × Nat} :
    p ∈ linePoints z c0 r0 c1 r1 ↔
      ∃ i ≤ lineIterations c0 r0 c1 r1, lineCell z c0 r0 c1 r1 i = p := by
  simp only [linePoints_eq, List.mem_map, List.mem_range, Nat.lt_succ_iff]

theorem lineCell_zero : lineCell z c0 r0 c1 r1 0 = (c0, r0) := by
  simp [lineCell, stepsTaken_zero]

theorem lineCell_last : lineCell z c0 r0 c1 r1 (lineIterations c0 r0 c1 r1) = (c1, r1) := by
  rw [lineCell, stepsTaken_last z (le_max_left _ _), stepsTaken_last z (le_max_right _ _),
    towards_absDiff, towards_absDiff]

theorem linePoints_head? : (linePoints z c0 r0 c1 r1).head? = some (c0, r0) := by
  rw [List.head?_eq_getElem?, linePoints_getElem? z _ _ _ _ (Nat.zero_le _), lineCell_zero]

theorem linePoints_getLast? : (linePoints z c0 r0 c1 r1).getLast? = some (c1, r1) := by
  rw [List.getLast?_eq_getElem?, linePoints_length, Nat.add_sub_cancel,
    linePoints_getElem? z _ _ _ _ le_rfl, lineCell_last]

/-- The steps of a line from one cell to the next (R123 c). -/
theorem lineCell_succ {i : Nat} (hi : i < lineIterations c0 r0 c1 r1) :
    let p := lineCell z c0 r0 c1 r1 i
    let q := lineCell z c0 r0 c1 r1 (i + 1)
    if absDiff r1 r0 < absDiff c1 c0 then
      (q.1 : Int) = p.1 + direction c0 c1 ∧
        ((q.2 : Int) = p.2 ∨ (q.2 : Int) = p.2 + direction r0 r1)
    else
      (q.2 : Int) = p.2 + direction r0 r1 ∧
        ((q.1 : Int) = p.1 ∨ (q.1 : Int) = p.1 + direction c0 c1) := by
  split_ifs with h
  · exact ⟨towards_major_succ z (max_eq_left h.le).symm hi,
      towards_minor_succ z (le_max_right _ _) hi⟩
  · exact ⟨towards_major_succ z (max_eq_right (Nat.le_of_not_lt h)).symm hi,
      towards_minor_succ z (le_max_left _ _) hi⟩

/-- Every cell of a line lies in the rectangle that its endpoints span (R123 d). -/
theorem lineCell_mem_rectangle {i : Nat} (hi : i ≤ lineIterations c0 r0 c1 r1) :
    (min c0 c1 ≤ (lineCell z c0 r0 c1 r1 i).1 ∧ (lineCell z c0 r0 c1 r1 i).1 ≤ max c0 c1) ∧
      min r0 r1 ≤ (lineCell z c0 r0 c1 r1 i).2 ∧ (lineCell z c0 r0 c1 r1 i).2 ≤ max r0 r1 :=
  ⟨towards_mem (stepsTaken_le z (le_max_left _ _) hi),
    towards_mem (stepsTaken_le z (le_max_right _ _) hi)⟩

/-- The cells of a diagonal (R123 f). -/
theorem lineCell_of_diagonal (h : absDiff c1 c0 = absDiff r1 r0) {i : Nat}
    (hi : i ≤ absDiff c1 c0) :
    lineCell z c0 r0 c1 r1 i = (towards c0 c1 i, towards r0 r1 i) := by
  rw [lineCell, lineIterations, ← h, max_self, stepsTaken_self z hi]

/-- On a diagonal, columns as the major axis give the same cells (R123 f). -/
theorem linePoints_of_diagonal (h : absDiff c1 c0 = absDiff r1 r0) :
    linePoints z c0 r0 c1 r1 =
      (lineCursors z (absDiff c1 c0) (absDiff r1 r0) (direction c0 c1) (direction r0 r1)
        (absDiff c1 c0) ⟨c0, r0, 2 * absDiff r1 r0 - absDiff c1 c0⟩).map
          (fun k => (k.p.toNat, k.q.toNat)) := by
  rw [lineCursors_eq z _ _ _ _ h.ge, linePoints_eq, lineIterations, ← h, max_self, List.map_map]
  refine List.map_congr_left fun i hi => ?_
  rw [lineCell, lineIterations, ← h, max_self]
  rfl

end Points

/-- Settles O35: each part is read off the cell after `i` iterations. -/
theorem linePointsShape : Obligations.LinePointsShape := by
  intro z c0 r0 c1 r1 hc0 hr0 hc1 hr1
  refine ⟨linePoints_length z c0 r0 c1 r1, linePoints_head? z c0 r0 c1 r1,
    linePoints_getLast? z c0 r0 c1 r1, ?steps, ?rectangle, ?horizontal, ?vertical, ?diagonal,
    ?error⟩
  case steps =>
    intro i p q hp hq
    have hi : i + 1 < (linePoints z c0 r0 c1 r1).length := (List.getElem?_eq_some_iff.1 hq).1
    rw [linePoints_length, Nat.succ_lt_succ_iff] at hi
    rw [linePoints_getElem? _ _ _ _ _ hi.le, Option.some_inj] at hp
    rw [linePoints_getElem? _ _ _ _ _ hi, Option.some_inj] at hq
    exact hp ▸ hq ▸ lineCell_succ z c0 r0 c1 r1 hi
  case rectangle =>
    intro p hp
    obtain ⟨i, hi, rfl⟩ := (mem_linePoints z c0 r0 c1 r1).1 hp
    obtain ⟨⟨hleft, hright⟩, htop, hbottom⟩ := lineCell_mem_rectangle z c0 r0 c1 r1 hi
    exact ⟨hleft, hright, htop, hbottom, hright.trans (max_le hc0 hc1),
      hbottom.trans (max_le hr0 hr1)⟩
  case horizontal =>
    intro hdy p hp
    obtain ⟨i, hi, rfl⟩ := (mem_linePoints z c0 r0 c1 r1).1 hp
    exact towards_eq_of_absDiff_eq_zero hdy (stepsTaken_le z (le_max_right _ _) hi)
  case vertical =>
    intro hdx p hp
    obtain ⟨i, hi, rfl⟩ := (mem_linePoints z c0 r0 c1 r1).1 hp
    exact towards_eq_of_absDiff_eq_zero hdx (stepsTaken_le z (le_max_left _ _) hi)
  case diagonal =>
    refine fun h => ⟨fun i hi => ?_, linePoints_of_diagonal z c0 r0 c1 r1 h⟩
    refine ⟨_, linePoints_getElem? z c0 r0 c1 r1 (hi.trans (le_max_left _ _)), ?_⟩
    rw [lineCell_of_diagonal z c0 r0 c1 r1 h hi, mul_comm, mul_comm (i : Int)]
    exact ⟨towards_cast hi, towards_cast (h ▸ hi)⟩
  case error =>
    intro e he
    rw [lineTrace_eq, List.mem_map] at he
    obtain ⟨i, hi, rfl⟩ := he
    have hdx : absDiff c1 c0 ≤ 255 := by unfold absDiff; omega
    have hdy : absDiff r1 r0 ≤ 255 := by unfold absDiff; omega
    exact errorAfter_bounds z min_le_max (Nat.lt_succ_iff.1 (List.mem_range.1 hi))
      (max_le hdx hdy)

/-- Settles O36: by definition `stepsTaken` is the rounded slope, and the major axis steps in every
iteration. -/
theorem lineFollowsRoundedSlope : Obligations.LineFollowsRoundedSlope := by
  intro z c0 r0 c1 r1 i
  refine ⟨fun h hi => ?columns, fun h _ hi => ?rows⟩
  case columns =>
    refine ⟨_, linePoints_getElem? z c0 r0 c1 r1 (hi.trans (le_max_left _ _)), ?_⟩
    rw [lineCell, lineIterations, max_eq_left h.le, stepsTaken_self z hi]
    exact ⟨towards_cast hi, towards_cast (stepsTaken_le z h.le hi)⟩
  case rows =>
    refine ⟨_, linePoints_getElem? z c0 r0 c1 r1 (hi.trans (le_max_right _ _)), ?_⟩
    rw [lineCell, lineIterations, max_eq_right h, stepsTaken_self z hi]
    exact ⟨towards_cast hi, towards_cast (stepsTaken_le z h hi)⟩

/-! ## What LINE draws -/

theorem exec_line (col0 row0 col1 row1 : Byte) (mode : DrawMode) (s : State) :
    exec (.line col0 row0 col1 row1 mode) s =
      .next (draw mode (linePlots params col0 row0 col1 row1) s) := rfl

/-- Settles O34: LINE is the drawing of `linePlots`. -/
theorem lineResult : Obligations.LineResult := fun col0 row0 col1 row1 mode s =>
  ⟨_, exec_line col0 row0 col1 row1 mode s, draw_okDrawing s mode _, plotAll_drawn mode s.fb _⟩

/-- Calls that all hand over the same value may be made in any order (R124 b): a pixel's bit depends
only on how many calls go to it. -/
theorem composeHits_perm_of_const (mode : DrawMode) (c r : Nat) (v : Bool) {ps qs : List Plot}
    (hperm : ps.Perm qs) (hv : ∀ p ∈ ps, truthy p.value = v) (old : Bool) :
    composeHits mode c r ps old = composeHits mode c r qs old := by
  rw [composeHits_const mode c r v ps old fun p hp _ => hv p hp,
    composeHits_const mode c r v qs old fun p hp _ => hv p (hperm.mem_iff.2 hp), hperm.countP_eq]

/-- Settles O37: all plots of a line carry value 1. -/
theorem lineOrderDoesNotMatter : Obligations.LineOrderDoesNotMatter := by
  intro mode m pts pts' a hperm
  refine plotAll_read_congr (fun c r old => ?_) a
  refine composeHits_perm_of_const mode c r true (hperm.map _) (fun p hp => ?_) old
  obtain ⟨pt, -, rfl⟩ := List.mem_map.1 hp
  rfl

end Sys2Proof.Machine

/-! PROOFS. The rectangle fill engine (spec/42_rect_fill.md R130 to R134): the fill predicates and
wrapping, the cells of a rectangle, the panel-wide checkerboard, and the order of FRECT's calls. -/

namespace Sys2Proof.Machine

/-! ## The fill predicates (R130, R131) -/

/-- The bit of a pattern with period 2 is the residue itself. -/
theorem toNat_decide_mod_two (n : Nat) : (decide (n % 2 = 1)).toNat = n % 2 := by
  rcases Nat.mod_two_eq_zero_or_one n with h | h <;> rw [h] <;> rfl

/-- Settles O40: the table is the definition, with each bit of period 2 read as a number. -/
theorem fillPatternTable : Obligations.FillPatternTable := fun c r =>
  ⟨rfl, rfl, decide_eq_true_iff, toNat_decide_mod_two (c + r), toNat_decide_mod_two r,
    toNat_decide_mod_two c⟩

/-- A pattern along the diagonals does not see wrapping when its period divides both sizes. -/
theorem wrapCol_add_wrapRow_mod {k : Nat} (hwidth : k ∣ 84) (hheight : k ∣ 48) (c r : Nat) :
    (wrapCol c + wrapRow r) % k = (c + r) % k :=
  Nat.ModEq.add (Nat.mod_mod_of_dvd c hwidth) (Nat.mod_mod_of_dvd r hheight)

theorem fillPred_wrap (fill : FillMode) (c r : Nat) :
    fillPred fill (wrapCol c) (wrapRow r) = fillPred fill c r := by
  cases fill with
  | solid => rfl
  | none => rfl
  | hatch => simp only [fillPred, wrapCol_add_wrapRow_mod (k := 3) (by decide) (by decide)]
  | checkerboard => simp only [fillPred, wrapCol_add_wrapRow_mod (k := 2) (by decide) (by decide)]
  | horizontalStripes =>
    have hrow : wrapRow r % 2 = r % 2 := Nat.mod_mod_of_dvd r (by decide)
    simp only [fillPred, hrow]
  | verticalStripes =>
    have hcol : wrapCol c % 2 = c % 2 := Nat.mod_mod_of_dvd c (by decide)
    simp only [fillPred, hcol]

/-- Settles O41. -/
theorem fillPatternsSurviveWrapping : Obligations.FillPatternsSurviveWrapping :=
  fun fill c r => (fillPred_wrap fill c r).symm

/-! ## The cells of a rectangle (R132) -/

theorem exec_frect (col0 row0 col1 row1 : Byte) (fill : FillMode) (mode : DrawMode) (s : State) :
    exec (.frect col0 row0 col1 row1 fill mode) s =
      frectWith params col0 row0 col1 row1 fill mode s := rfl

theorem frectWith_eq (P : Config.Params) (col0 row0 col1 row1 : Byte) (fill : FillMode)
    (mode : DrawMode) (s : State) :
    frectWith P col0 row0 col1 row1 fill mode s =
      .next (draw mode (rectPlots P fill col0.toNat row0.toNat col1.toNat row1.toNat) s) := rfl

/-- Settles O38: FRECT is the drawing of `rectPlots`, whose loops are those of R132. -/
theorem frectResult : Obligations.FrectResult := fun col0 row0 col1 row1 fill mode s =>
  ⟨_, frectWith_eq params col0 row0 col1 row1 fill mode s, draw_okDrawing s mode _,
    plotAll_drawn mode s.fb _⟩

section Rectangles

variable (P : Config.Params) (fill : FillMode) {col0 row0 col1 row1 : Nat}
  (hwidth : col1 < col0 + 84) (hheight : row1 ≤ row0 + 48)

/-- The calls of FRECT by their offsets from the rectangle's corner. -/
theorem rectPlots_eq_offsets (col0 row0 col1 row1 : Nat) :
    rectPlots P fill col0 row0 col1 row1 =
      (List.range (col1 + 1 - col0)).flatMap (fun i => (List.range (row1 - row0)).map (fun j =>
        ⟨col0 + i, row0 + j, (P.fillPred fill (col0 + i) (row0 + j)).toNat⟩)) := by
  simp only [rectPlots, ascending, List.range'_eq_map_range, List.flatMap_map, List.map_map,
    Function.comp_def]

include hwidth hheight

/-- The cells of a rectangle that fits the panel are distinct pixels. -/
theorem rectPlots_distinct :
    (rectPlots P fill col0 row0 col1 row1).Pairwise DistinctPixels := by
  rw [rectPlots_eq_offsets]
  refine List.pairwise_flatMap.2 ⟨fun i _ => ?column, ?columns⟩
  case column =>
    refine pairwise_distinctPixels_rows (col0 + i) row0 _ List.nodup_range fun j hj => ?_
    have hj' := List.mem_range.1 hj
    omega
  case columns =>
    refine List.nodup_range.imp_of_mem fun {i i'} hi hi' hne p hp q hq hpixel => ?_
    obtain ⟨j, -, rfl⟩ := List.mem_map.1 hp
    obtain ⟨j', -, rfl⟩ := List.mem_map.1 hq
    have hlt : ∀ i ∈ List.range (col1 + 1 - col0), i < 84 := fun i hi => by
      have hi' := List.mem_range.1 hi
      omega
    exact hne (wrapCol_add_inj (hlt i hi) (hlt i' hi') hpixel.1)

/-- A rectangle that fits the panel composes each of its cells once, and nothing else. -/
theorem rectPlots_drawnCells (mode : DrawMode) (m : Memory) :
    DrawnCells mode
      (fun x y v => (col0 ≤ x ∧ x ≤ col1) ∧ (row0 ≤ y ∧ y < row1) ∧ v = P.fillPred fill x y)
      m (plotAll mode m (rectPlots P fill col0 row0 col1 row1)) := by
  refine drawnCells_of_distinct mode m (rectPlots_distinct P fill hwidth hheight) fun x y v => ?_
  simp only [mem_rectPlots]
  constructor
  · rintro ⟨hx, hy, rfl⟩
    exact ⟨_, ⟨x, y, hx, hy, rfl⟩, rfl, rfl, truthy_toNat _⟩
  · rintro ⟨_, ⟨x, y, hx, hy, rfl⟩, rfl, rfl, rfl⟩
    exact ⟨hx, hy, truthy_toNat _⟩

end Rectangles

/-- Settles O39, from the cells of the rectangle being distinct pixels. -/
theorem frectWithoutOverlap : Obligations.FrectWithoutOverlap :=
  fun P col0 row0 col1 row1 fill mode s hwidth hheight =>
    ⟨_, frectWith_eq P col0 row0 col1 row1 fill mode s, draw_okDrawing s mode _,
      rectPlots_drawnCells P fill hwidth hheight mode s.fb⟩

/-! ## The panel-wide checkerboard (R133) -/

/-- A fill of the whole panel in set mode leaves the pattern, whatever FB held. -/
theorem panelFill_pixel (P : Config.Params) (fill : FillMode) (m : Memory) {c r : Nat}
    (hc : c < 84) (hr : r < 48) :
    (plotAll .set m (rectPlots P fill 0 0 83 48)).pixel c r = P.fillPred fill c r := by
  have hcell := (rectPlots_drawnCells P fill (by decide) (by decide) .set m).hit c r _
    ⟨⟨c.zero_le, Nat.le_of_lt_succ hc⟩, ⟨r.zero_le, hr⟩, rfl⟩
  rwa [wrapCol_of_lt hc, wrapRow_of_lt hr] at hcell

/-- The bytes 0xAA and 0x55 are a column of the checkerboard, from its parity on. -/
theorem checkerboardByte_getLsbD (c : Nat) {b : Nat} (hb : b < 8) :
    (if c % 2 = 0 then 0xAA#8 else 0x55#8).getLsbD b = decide ((c + b) % 2 = 1) := by
  have hbytes : ∀ b < 8, (0xAA#8).getLsbD b = decide (b % 2 = 1) ∧
      (0x55#8).getLsbD b = decide (b % 2 = 0) := by decide
  split_ifs with hc
  · rw [(hbytes b hb).1, decide_eq_decide]
    omega
  · rw [(hbytes b hb).2, decide_eq_decide]
    omega

section Checkerboard

variable {m : Memory}
  (hpixels : ∀ c r, c < 84 → r < 48 → m.pixel c r = decide ((c + r) % 2 = 1))
include hpixels

theorem getPixel_of_checkerboard {col row : Nat} (hcol : col < 84) (hrow : row < 48) :
    getPixel m col row ≠ 0#8 ↔ (col + row) % 2 = 1 := by
  rw [Ne, getPixel_eq_zero_iff, Bool.not_eq_false, wrapCol_of_lt hcol, wrapRow_of_lt hrow,
    hpixels col row hcol hrow, decide_eq_true_iff]

/-- A bank starts at an even row, so the bank does not matter to a byte of the checkerboard. -/
theorem read_of_checkerboard {i : Nat} (hi : i < 504) :
    m.read i = if i % 84 % 2 = 0 then 0xAA#8 else 0x55#8 := by
  refine read_of_pixels m _ fun b hb => ?_
  rw [hpixels _ _ (by omega) (by omega), checkerboardByte_getLsbD _ hb, decide_eq_decide]
  omega

end Checkerboard

/-- The machine's own parameters keep what the source fixes. -/
theorem params_allowed : params.Allowed := ⟨fun _ _ => rfl, fun _ _ _ _ _ _ => rfl⟩

/-- Settles O42: the fill leaves the pattern on every pixel, and GETPX and the bytes are read off the
pixels. -/
theorem checkerboardFillsPanel : Obligations.CheckerboardFillsPanel := by
  refine ⟨fun P s hP => ?_, params_allowed, exec_frect 0 0 83 48 .checkerboard .set⟩
  have hpixels : ∀ c r, c < 84 → r < 48 →
      (plotAll .set s.fb (rectPlots P .checkerboard 0 0 83 48)).pixel c r =
        decide ((c + r) % 2 = 1) := fun c r hc hr =>
    (panelFill_pixel P .checkerboard s.fb hc hr).trans (hP.checkerboard c r)
  refine ⟨_, frectWith_eq P 0 0 83 48 .checkerboard .set s, draw_okDrawing s _ _,
    fun col row hcol hrow => ⟨_, exec_getpx col row _, ?query⟩, fun i hi => ?bytes⟩
  case query =>
    rw [answer_result, draw_fb]
    exact getPixel_of_checkerboard hpixels hcol hrow
  case bytes =>
    rw [draw_fb]
    exact read_of_checkerboard hpixels hi

/-! ## The order of the calls (R134) -/

/-- Calls may be made in any order when those that go to one pixel hand over the same value: the
pixel's bit depends only on how many they are. -/
theorem composeHits_perm_of_hits (mode : DrawMode) (c r : Nat) (v : Bool) {ps qs : List Plot}
    (hperm : ps.Perm qs)
    (hv : ∀ p ∈ ps, wrapCol p.col = c ∧ wrapRow p.row = r → truthy p.value = v) (old : Bool) :
    composeHits mode c r ps old = composeHits mode c r qs old := by
  rw [composeHits_const mode c r v ps old hv,
    composeHits_const mode c r v qs old fun q hq => hv q (hperm.mem_iff.2 hq), hperm.countP_eq]

/-- Settles O43: cells that wrap to one pixel carry the same pattern bit, since the predicates do not
see wrapping. -/
theorem frectOrderDoesNotMatter : Obligations.FrectOrderDoesNotMatter := by
  intro fill mode m cells cells' a hperm
  refine plotAll_read_congr (fun c r old => ?_) a
  refine composeHits_perm_of_hits mode c r (fillPred fill c r) (hperm.map _) ?_ old
  intro p hp hhit
  obtain ⟨cell, -, rfl⟩ := List.mem_map.1 hp
  obtain ⟨rfl, rfl⟩ := hhit
  rw [truthy_toNat, fillPred_wrap]

end Sys2Proof.Machine

/-! PROOFS. Glyph and string rendering (spec/43_glyph.md R140 to R146): the cells PCHAR and PSTR
draw, the spacing column they leave, and a glyph on a bank boundary as byte writes. -/

namespace Sys2Proof.Machine

/-! ## What PCHAR and PSTR draw (R140 to R143) -/

theorem exec_pchar (ch col row : Byte) (mode : DrawMode) (s : State) :
    exec (.pchar ch col row mode) s = pcharWith params ch col row mode s := rfl

theorem exec_pstr (text : List Byte) (col row : Byte) (mode : DrawMode) (s : State) :
    exec (.pstr text col row mode) s = pstrWith params text col row mode s := rfl

/-- A glyph composes each of its forty cells once, and nothing else (R140). -/
theorem glyphPlots_drawnCells (P : Config.Params) (g col row : Nat) (mode : DrawMode) (m : Memory) :
    DrawnCells mode
      (fun x y v => ∃ i b, i < 5 ∧ b < 8 ∧ x = col + i ∧ y = row + b ∧ v = (P.font g i).getLsbD b)
      m (plotAll mode m (glyphPlots P g col row)) := by
  refine drawnCells_of_distinct mode m (glyphPlots_distinct P g col row) fun x y v => ?_
  simp only [mem_glyphPlots]
  constructor
  · rintro ⟨i, b, hi, hb, rfl, rfl, rfl⟩
    exact ⟨_, ⟨i, b, hi, hb, rfl⟩, rfl, rfl, truthy_masked _ hb⟩
  · rintro ⟨_, ⟨i, b, hi, hb, rfl⟩, rfl, rfl, rfl⟩
    exact ⟨i, b, hi, hb, rfl, rfl, truthy_masked _ hb⟩

/-- Settles O44: PCHAR is the drawing of its glyph's calls. -/
theorem pcharResult : Obligations.PcharResult := by
  intro ch col row mode s hch
  refine ⟨_, (exec_pchar ch col row mode s).trans (pcharWith_accepted params s hch col row mode),
    draw_okDrawing s mode _, ?_⟩
  rw [draw_fb]
  exact glyphPlots_drawnCells params (glyphNumber ch) col.toNat row.toNat mode s.fb

/-- Settles O46: PSTR is the drawing of the calls of the characters that fit. -/
theorem pstrResult : Obligations.PstrResult := by
  intro text col row mode s htext
  refine ⟨_, (exec_pstr text col row mode s).trans (pstrWith_accepted params s htext col row mode),
    draw_okDrawing s mode _, ?_⟩
  rw [draw_fb]
  exact stringPlots_drawnCells params text col.toNat row.toNat mode s.fb

/-- Settles O45: from column 0 the quotient is 84 / 6 = 14. -/
theorem stringLayout : Obligations.StringLayout :=
  ⟨fun _ n k hx0 => lt_nprint n k hx0, fun _ hn => Nat.min_eq_right hn⟩

/-! ## The spacing column of a text cell (R144) -/

/-- A glyph's five columns stop before the sixth, also when they wrap. -/
theorem glyphPlots_pixel_spacing (P : Config.Params) (g col row : Nat) (mode : DrawMode) (m : Memory)
    {r : Nat} (hr : r < 48) :
    (plotAll mode m (glyphPlots P g col row)).pixel (wrapCol (col + 5)) r =
      m.pixel (wrapCol (col + 5)) r := by
  refine (glyphPlots_drawnCells P g col row mode m).miss _ r (wrapCol_lt _) hr ?_
  rintro _ _ _ ⟨i, b, hi, -, rfl, -, -⟩ ⟨hcol, -⟩
  exact hi.ne (wrapCol_add_inj (hi.trans (by decide)) (by decide) hcol)

/-- The characters of a string are six columns apart and do not wrap, so none reaches the sixth
column of a cell. -/
theorem stringPlots_pixel_spacing (P : Config.Params) (text : List Byte) (col row : Nat)
    (mode : DrawMode) (m : Memory) {k r : Nat} (hk : wrapCol col + 6 * k + 5 < 84) (hr : r < 48) :
    (plotAll mode m (stringPlots P text col row)).pixel (wrapCol col + 6 * k + 5) r =
      m.pixel (wrapCol col + 6 * k + 5) r := by
  refine (stringPlots_drawnCells P text col row mode m).miss _ r hk hr ?_
  rintro _ _ _ ⟨k', ch, i, b, -, hfit, hi, -, rfl, -, -⟩ ⟨hcol, -⟩
  rw [wrapCol_of_lt (n := wrapCol col + 6 * k' + i) (by omega)] at hcol
  omega

/-- Settles O47: a rejected command leaves FB alone, and an accepted one draws calls that miss the
spacing column. -/
theorem spacingColumnIsKept : Obligations.SpacingColumnIsKept := by
  refine ⟨fun ch col row mode s r hr => ?pchar, fun text col row mode s k r hk hr => ?pstr⟩
  case pchar =>
    rw [exec_pchar]
    by_cases hch : InFont ch
    · refine ⟨_, pcharWith_accepted params s hch col row mode, ?_⟩
      rw [draw_fb]
      exact glyphPlots_pixel_spacing params _ col.toNat row.toNat mode s.fb hr
    · exact ⟨_, pcharWith_rejected params s hch col row mode, by rw [raiseError_fb]⟩
  case pstr =>
    rw [exec_pstr]
    by_cases htext : ∀ ch ∈ text, InFont ch
    · refine ⟨_, pstrWith_accepted params s htext col row mode, ?_⟩
      rw [draw_fb]
      exact stringPlots_pixel_spacing params text col.toNat row.toNat mode s.fb hk hr
    · exact ⟨_, pstrWith_rejected params s htext col row mode, by rw [raiseError_fb]⟩

/-! ## A glyph on a bank boundary (R146) -/

/-- Calls to the same wrapped cell with values of the same truth do the same (R43, R101). -/
theorem plot_congr (mode : DrawMode) (m : Memory) {p q : Plot} (hcol : wrapCol p.col = wrapCol q.col)
    (hrow : wrapRow p.row = wrapRow q.row) (hvalue : truthy p.value = truthy q.value) :
    plot mode m p = plot mode m q := by
  rw [plot, plot, setPixel_congr mode m _ hcol hrow, setPixel, setPixel, hvalue]

section BankAligned

variable (P : Config.Params) (g col : Nat) {row : Nat}

/-- The eight SetPixel calls of column `i` of a glyph (R140). -/
def glyphColumnPlots (row i : Nat) : List Plot :=
  (List.range Config.glyphRows).map (fun b =>
    ⟨col + i, row + b, (P.font g i &&& (1#8 <<< b)).toNat⟩)

theorem glyphPlots_eq_flatMap_columns (row : Nat) :
    glyphPlots P g col row =
      (List.range Config.glyphCols).flatMap (glyphColumnPlots P g col row) := rfl

variable (hrow : row % 48 % 8 = 0)
include hrow

/-- From a bank boundary on, the calls of a glyph column hand the glyph byte to the rows of one bank
byte. -/
theorem plotAll_glyphColumnPlots (mode : DrawMode) (m : Memory) (i : Nat) :
    plotAll mode m (glyphColumnPlots P g col row i) =
      plotAll mode m
        (bytePlots (wrapCol (col + i)) (wrapRow row / 8) (P.font g i) (List.range 8)) := by
  rw [plotAll, plotAll, glyphColumnPlots, bytePlots, List.foldl_map, List.foldl_map]
  refine List.foldl_ext _ _ _ fun m b hb => plot_congr mode m ?_ ?_ ?_
  · exact (wrapCol_wrapCol (col + i)).symm
  · have hb8 : b < 8 := List.mem_range.1 hb
    simp only [wrapRow_eq_mod]
    omega
  · exact (truthy_masked _ (List.mem_range.1 hb)).trans (truthy_toNat _).symm

/-- A glyph column drawn in set mode on a bank boundary is one byte write. -/
theorem glyphColumnPlots_read (m : Memory) (i a : Nat) :
    (plotAll .set m (glyphColumnPlots P g col row i)).read a =
      (m.write (pixelTarget (col + i) row) (P.font g i)).read a := by
  have hbank : wrapRow row / 8 < 6 := Nat.div_lt_of_lt_mul (wrapRow_lt row)
  rw [plotAll_glyphColumnPlots P g col hrow, Memory.read_write,
    plotAll_bytePlots_read _ _ _ (wrapCol_lt _) hbank (.refl _)]
  rfl

/-- Glyph columns drawn in set mode on a bank boundary are byte writes, in the same order. -/
theorem glyphColumns_read (m : Memory) (columns : List Nat) (a : Nat) :
    (plotAll .set m (columns.flatMap (glyphColumnPlots P g col row))).read a =
      (columns.foldl (fun m i => m.write (pixelTarget (col + i) row) (P.font g i)) m).read a := by
  induction columns using List.reverseRecOn with
  | nil => rfl
  | append_singleton columns i ih =>
    rw [List.flatMap_append, List.flatMap_singleton, plotAll_append,
      glyphColumnPlots_read P g col hrow, List.foldl_append, List.foldl_cons, List.foldl_nil,
      Memory.read_write, Memory.read_write, ih]

end BankAligned

/-- Settles O49: the address of R41 for the top row of a glyph column is that of its bank byte. -/
theorem bankAlignedGlyph : Obligations.BankAlignedGlyph := by
  intro P g col row m a hrow
  rw [glyphPlots_eq_flatMap_columns]
  exact glyphColumns_read P g col hrow m (List.range 5) a

end Sys2Proof.Machine

/-! PROOFS. The bitmap blit (spec/44_bitmap_blit.md R150 to R161): what the two blits draw, the code
every command reports (spec/60_exceptions.md R180), bitmaps that fit the panel, and the walking mask
of the source. -/

namespace Sys2Proof.Machine

/-! ## What BLITP and BLITS draw (R154, R157, R160) -/

theorem exec_blitp (col row width height : Byte) (mode : DrawMode) (xf : Transform)
    (data : List Byte) (s : State) :
    exec (.blitp col row width height mode xf data) s =
      blitpWith params col row width height mode xf data s := rfl

theorem exec_blits (col row : Byte) (mode : DrawMode) (xf : Transform) (data : List Byte)
    (s : State) :
    exec (.blits col row mode xf data) s = blitsWith params col row mode xf data s := rfl

/-- Settles O50: BLITP of enough payload is the drawing of `blitPlots`, whose loops are those of
R154. -/
theorem blitpResult : Obligations.BlitpResult := by
  intro col row width height mode xf data s hlen
  refine ⟨_, ?_, draw_okDrawing s mode _, plotAll_drawn mode s.fb _⟩
  rw [exec_blitp, blitpWith_eq, if_neg (Nat.not_lt.2 hlen)]
  rfl

/-- Settles O51: BLITS of a supported bitmap with enough data is the drawing of `blitPlots`. -/
theorem blitsResult : Obligations.BlitsResult := by
  intro col row mode xf w h tl s hlen
  refine ⟨_, ?_, draw_okDrawing s mode _, plotAll_drawn mode s.fb _⟩
  rw [exec_blits, blitsWith_cons, if_neg (by decide), if_neg (Nat.not_lt.2 hlen)]
  rfl

/-! ## The outcome codes (R158, R180, R183) -/

/-- Settles O14: eight commands make no check, and each of the other four reports the code of the
first check it fails. -/
theorem outcomeCodes : Obligations.OutcomeCodes := by
  refine ⟨?unchecked, ?pchar, ?pstr, ?blitp, ?blitsShort, ?blits⟩
  case unchecked =>
    intro i s hpchar hpstr hblitp hblits
    cases i
    case pchar ch col row mode => exact absurd rfl (hpchar ch col row mode)
    case pstr text col row mode => exact absurd rfl (hpstr text col row mode)
    case blitp col row w h mode xf data => exact absurd rfl (hblitp col row w h mode xf data)
    case blits col row mode xf data => exact absurd rfl (hblits col row mode xf data)
    all_goals exact ⟨_, rfl, rfl⟩
  case pchar =>
    intro ch col row mode s
    rw [exec_pchar]
    split_ifs with hch
    · exact ⟨_, pcharWith_accepted params s hch col row mode, rfl⟩
    · exact ⟨_, pcharWith_rejected params s hch col row mode, rfl⟩
  case pstr =>
    intro text col row mode s
    rw [exec_pstr]
    by_cases htext : ∀ ch ∈ text, InFont ch
    · exact ⟨_, pstrWith_accepted params s htext col row mode, fun _ => rfl,
        fun ⟨ch, hmem, hch⟩ => absurd (htext ch hmem) hch⟩
    · exact ⟨_, pstrWith_rejected params s htext col row mode, fun hall => absurd hall htext,
        fun _ => rfl⟩
  case blitp =>
    intro col row w h mode xf data s
    rw [exec_blitp, blitpWith_eq]
    split_ifs <;> exact ⟨_, rfl, rfl⟩
  case blitsShort =>
    intro col row mode xf data s hlen
    exact ⟨_, blitsWith_short params s col row mode xf hlen, rfl⟩
  case blits =>
    intro col row mode xf ty rv w h tl s
    rw [exec_blits, blitsWith_cons]
    split_ifs <;> exact ⟨_, rfl, rfl⟩

/-! ## Bitmaps that fit the panel (R155) -/

section Blits

variable {w h : Nat} (src : Nat → Nat → Bool) (col row : Nat) (xf : Transform)

/-- The calls of a blit by their source positions `(y, x)`, row-major. -/
theorem blitPlots_eq_map_product (P : Config.Params) :
    blitPlots P w h src col row xf =
      (List.range h ×ˢ List.range w).map (fun o =>
        ⟨col + (P.xform xf.rot xf.mir w h o.2 o.1).1, row + (P.xform xf.rot xf.mir w h o.2 o.1).2,
          (src o.2 o.1 ^^ xf.inv).toNat⟩) := by
  simp only [blitPlots, SProd.sprod, List.product, List.map_flatMap, List.map_map,
    Function.comp_def]

variable (hwidth : (xformSize xf.rot w h).1 ≤ 84) (hheight : (xformSize xf.rot w h).2 ≤ 48)
include hwidth hheight

/-- The transform is injective into the destination rectangle, and a rectangle that fits the panel
stays free of overlap when it wraps. -/
theorem blitPlots_distinct :
    (blitPlots params w h src col row xf).Pairwise DistinctPixels := by
  obtain ⟨hinside, hinjective, -, -⟩ := transformIsBijection xf.rot xf.mir w h
  rw [blitPlots_eq_map_product]
  refine List.pairwise_map.2 ((List.nodup_range.product List.nodup_range).imp_of_mem ?_)
  rintro ⟨y, x⟩ ⟨y', x'⟩ ho ho' hne ⟨hcol, hrow⟩
  obtain ⟨hy, hx⟩ := List.mem_product.1 ho
  obtain ⟨hy', hx'⟩ := List.mem_product.1 ho'
  rw [List.mem_range] at hy hx hy' hx'
  have hin := hinside x y hx hy
  have hin' := hinside x' y' hx' hy'
  have hoffset : xform xf.rot xf.mir w h x y = xform xf.rot xf.mir w h x' y' := Prod.ext
    (wrapCol_add_inj (hin.1.trans_le hwidth) (hin'.1.trans_le hwidth) hcol)
    (wrapRow_add_inj (hin.2.trans_le hheight) (hin'.2.trans_le hheight) hrow)
  obtain ⟨rfl, rfl⟩ := hinjective x y x' y' hx hy hx' hy' hoffset
  exact hne rfl

end Blits

/-- Settles O52, from the destination cells being distinct pixels. -/
theorem blitWithoutOverlap : Obligations.BlitWithoutOverlap := by
  intro mode m w h src col row xf hwidth hheight
  refine drawnCells_of_distinct mode m (blitPlots_distinct src col row xf hwidth hheight)
    fun x y v => ?_
  simp only [mem_blitPlots]
  constructor
  · rintro ⟨sx, sy, hsx, hsy, rfl, rfl, rfl⟩
    exact ⟨_, ⟨sx, sy, hsx, hsy, rfl⟩, rfl, rfl, truthy_toNat _⟩
  · rintro ⟨_, ⟨sx, sy, hsx, hsy, rfl⟩, rfl, rfl, rfl⟩
    exact ⟨sx, sy, hsx, hsy, rfl, rfl, truthy_toNat _⟩

/-! ## The walking mask (R152) -/

/-- The bit of the payload a cursor of the walk stands on. -/
def MaskCursor.bit (pay : List Byte) (k : MaskCursor) : Bool :=
  decide (payByte pay k.ptr &&& k.mask ≠ 0#8)

/-- The cursor on bit `p` of the payload from byte `base` on, bit 0 being the top bit of that
byte. -/
def MaskCursor.onBit (base p : Nat) : MaskCursor := ⟨base + p / 8, 1#8 <<< (7 - p % 8)⟩

/-- The cursor at the start of row `y` of width `w`, when row 0 starts at `k`. -/
def MaskCursor.rowStart (selfDescribing : Bool) (w y : Nat) (k : MaskCursor) : MaskCursor :=
  (fun k => (walkEnd w k).endRow selfDescribing)^[y] k

theorem MaskCursor.rowStart_succ (selfDescribing : Bool) (w y : Nat) (k : MaskCursor) :
    k.rowStart selfDescribing w (y + 1) =
      ((walkEnd w k).endRow selfDescribing).rowStart selfDescribing w y := rfl

/-! ### The walk by its cursors -/

section Walk

variable (selfDescribing : Bool) (pay : List Byte)

theorem walkRow_getElem? {n x : Nat} (hx : x < n) (k : MaskCursor) :
    (walkRow pay n k)[x]? = some ((walkEnd x k).bit pay) := by
  induction n generalizing x k with
  | zero => exact absurd hx x.not_lt_zero
  | succ n ih =>
    cases x with
    | zero => rfl
    | succ x => exact ih (Nat.lt_of_succ_lt_succ hx) k.advance

theorem walkRows_getElem? (w : Nat) {h y : Nat} (hy : y < h) (k : MaskCursor) :
    (walkRows selfDescribing pay w h k)[y]? =
      some (walkRow pay w (k.rowStart selfDescribing w y)) := by
  induction h generalizing y k with
  | zero => exact absurd hy y.not_lt_zero
  | succ h ih =>
    cases y with
    | zero => rfl
    | succ y => exact ih (Nat.lt_of_succ_lt_succ hy) _

/-- The walk reads the bit its cursor stands on after `x` pixels of row `y`. -/
theorem maskWalk_getElem? {w h x y : Nat} (hx : x < w) (hy : y < h) :
    (maskWalk selfDescribing pay w h)[y]?.bind (fun bits => bits[x]?) =
      some ((walkEnd x ((MaskCursor.onBit (if selfDescribing then 4 else 0) 0).rowStart
        selfDescribing w y)).bit pay) :=
  (congrArg (Option.bind · _) (walkRows_getElem? selfDescribing pay w hy _)).trans
    (walkRow_getElem? pay hx _)

end Walk

/-! ### The cursor by the bit it stands on -/

theorem MaskCursor.bit_onBit (pay : List Byte) (base p : Nat) :
    (onBit base p).bit pay = (payByte pay (base + p / 8)).getLsbD (7 - p % 8) :=
  (truthy_byte _).symm.trans (truthy_masked _ (by omega))

theorem mask_shiftRight {j : Nat} (hj : j < 8) :
    (1#8 <<< (7 - j)) >>> 1 = if j = 7 then 0#8 else 1#8 <<< (7 - (j + 1)) :=
  (by decide : ∀ j < 8, (1#8 <<< (7 - j)) >>> 1 =
    if j = 7 then 0#8 else 1#8 <<< (7 - (j + 1))) j hj

theorem mask_eq_top_iff {j : Nat} (hj : j < 8) : 1#8 <<< (7 - j) = 0x80#8 ↔ j = 0 :=
  (by decide : ∀ j < 8, 1#8 <<< (7 - j) = 0x80#8 ↔ j = 0) j hj

/-- The mask goes on to the next byte exactly after the last bit of one. -/
theorem MaskCursor.advance_onBit (base p : Nat) : (onBit base p).advance = onBit base (p + 1) := by
  rw [advance, onBit, mask_shiftRight (Nat.mod_lt p (by decide)), onBit]
  by_cases hlast : p % 8 = 7
  · have hptr : (p + 1) / 8 = p / 8 + 1 := by omega
    have hbit : (p + 1) % 8 = 0 := by omega
    rw [if_pos hlast, if_pos rfl, hptr, hbit, Nat.add_assoc]
    rfl
  · have hptr : (p + 1) / 8 = p / 8 := by omega
    have hbit : (p + 1) % 8 = p % 8 + 1 := by omega
    rw [if_neg hlast, if_neg (bit_ne_zero (by omega)), hptr, hbit]

theorem MaskCursor.walkEnd_onBit (base p n : Nat) :
    walkEnd n (onBit base p) = onBit base (p + n) := by
  induction n generalizing p with
  | zero => rfl
  | succ n ih => rw [walkEnd, advance_onBit, ih, Nat.add_right_comm, Nat.add_assoc]

/-- The end of a row of `p` bits drops the rest of a byte that is partly read. -/
theorem MaskCursor.endRow_onBit (base p : Nat) :
    (onBit base p).endRow true = onBit (base + stride p) 0 := by
  have htop := mask_eq_top_iff (Nat.mod_lt p (by decide : 8 > 0))
  by_cases hfull : p % 8 = 0
  · have hstride : stride p = p / 8 := by rw [stride, ceilDiv_eight]; omega
    rw [endRow, if_neg (fun h => h.2 (htop.2 hfull)), onBit, onBit, hstride, hfull]
    rfl
  · have hstride : stride p = p / 8 + 1 := by rw [stride, ceilDiv_eight]; omega
    rw [endRow, if_pos ⟨rfl, fun h => hfull (htop.1 h)⟩, onBit, onBit, hstride]
    rfl

/-- The rows of a packed bitmap follow each other without a gap (R150). -/
theorem MaskCursor.rowStart_packed (base p w y : Nat) :
    (onBit base p).rowStart false w y = onBit base (p + y * w) := by
  induction y generalizing p with
  | zero => rw [Nat.zero_mul]; rfl
  | succ y ih =>
    have hrow : (walkEnd w (onBit base p)).endRow false = onBit base (p + w) :=
      walkEnd_onBit base p w
    rw [rowStart_succ, hrow, ih, Nat.succ_mul, Nat.add_assoc, Nat.add_comm w]

/-- Each row of a self-describing bitmap starts on a byte, `stride` bytes after the one before
(R151). -/
theorem MaskCursor.rowStart_selfDescribing (base w y : Nat) :
    (onBit base 0).rowStart true w y = onBit (base + y * stride w) 0 := by
  induction y generalizing base with
  | zero => rw [Nat.zero_mul]; rfl
  | succ y ih =>
    rw [rowStart_succ, walkEnd_onBit, Nat.zero_add, endRow_onBit, ih, Nat.succ_mul, Nat.add_assoc,
      Nat.add_comm (stride w)]

/-- Settles O55: the walk's cursor in row `y` after `x` pixels stands on the bit of the closed
form. -/
theorem maskWalkReadsTheBitmap : Obligations.MaskWalkReadsTheBitmap := by
  intro pay w h x y hx hy
  rw [maskWalk_getElem? false pay hx hy, maskWalk_getElem? true pay hx hy,
    if_neg Bool.false_ne_true, if_pos rfl, MaskCursor.rowStart_packed,
    MaskCursor.rowStart_selfDescribing]
  simp only [MaskCursor.walkEnd_onBit, MaskCursor.bit_onBit, Nat.zero_add]
  exact ⟨rfl, rfl⟩

/-! ## The worked transforms (R161) -/

/-- Settles O54, by evaluating the six calls of each blit of the image. -/
theorem workedTransforms : Obligations.WorkedTransforms := by
  unfold Obligations.WorkedTransforms
  decide

end Sys2Proof.Machine

/-! PROOFS. Errors (spec/60_exceptions.md R180 to R186): a command whose checks hold completes with
OK, any other changes STATUS only, and the record of a run tells the two apart. -/

namespace Sys2Proof.Machine

/-! ## The check of BLITS (R158) -/

theorem not_accepted_blits_short (col row : Byte) (mode : DrawMode) (xf : Transform)
    {data : List Byte} (h : data.length < 4) : ¬Accepted (.blits col row mode xf data) := by
  rintro ⟨w, ht, tl, rfl, -⟩
  simp only [List.length_cons] at h
  omega

/-- On a payload that holds its header, the check is type 0, reserved 0 and enough data. -/
theorem accepted_blits_cons (col row : Byte) (mode : DrawMode) (xf : Transform)
    (ty rv w h : Byte) (tl : List Byte) :
    Accepted (.blits col row mode xf (ty :: rv :: w :: h :: tl)) ↔
      (ty = 0 ∧ rv = 0) ∧ (w.toNat + 7) / 8 * h.toNat ≤ tl.length := by
  constructor
  · rintro ⟨w, h, tl, heq, hlen⟩
    cases heq
    exact ⟨⟨rfl, rfl⟩, hlen⟩
  · rintro ⟨⟨rfl, rfl⟩, hlen⟩
    exact ⟨w, h, tl, rfl, hlen⟩

/-! ## A command completes or changes STATUS only (R180, R182, R184) -/

/-- A command whose checks hold completes; any other ends with an error, which is not ILLEGAL: that
code belongs to headers (R70). -/
theorem exec_accepted_or_raises (i : Instr) (s : State) :
    (Accepted i ∧ ∃ u, exec i s = .next (complete u)) ∨
      (¬Accepted i ∧ ∃ e, e ≠ ErrorCode.illegal ∧ exec i s = .next (raiseError e s)) := by
  cases i
  case pchar ch col row mode =>
    by_cases h : InFont ch
    · exact .inl ⟨h, _, pcharWith_accepted params s h col row mode⟩
    · exact .inr ⟨h, _, by decide, pcharWith_rejected params s h col row mode⟩
  case pstr text col row mode =>
    by_cases h : ∀ ch ∈ text, InFont ch
    · exact .inl ⟨h, _, pstrWith_accepted params s h col row mode⟩
    · exact .inr ⟨h, _, by decide, pstrWith_rejected params s h col row mode⟩
  case blitp col row width height mode xf data =>
    rw [exec_blitp, blitpWith_eq]
    split_ifs with h
    · exact .inr ⟨Nat.not_le.2 h, _, by decide, rfl⟩
    · exact .inl ⟨Nat.not_lt.1 h, _, rfl⟩
  case blits col row mode xf data =>
    by_cases hshort : data.length < 4
    · exact .inr ⟨not_accepted_blits_short col row mode xf hshort, _, by decide,
        blitsWith_short params s col row mode xf hshort⟩
    obtain ⟨ty, rv, w, h, tl, rfl⟩ := exists_bitmapHeader hshort
    rw [exec_blits, blitsWith_cons, accepted_blits_cons]
    split_ifs with hformat hlen
    · exact .inr ⟨fun hacc => not_and_or.2 hformat hacc.1, _, by decide, rfl⟩
    · exact .inr ⟨fun hacc => hacc.2.not_gt hlen, _, by decide, rfl⟩
    · exact .inl ⟨⟨not_or.1 hformat |>.imp not_not.1 not_not.1, Nat.not_lt.1 hlen⟩, _, rfl⟩
  all_goals exact .inl ⟨trivial, _, rfl⟩

theorem statusOf_code_mem {e : ErrorCode} (h : e ≠ .illegal) :
    statusOf e.code ∈ [0x02#8, 0x03#8, 0x04#8] := by
  cases e
  case illegal => exact absurd rfl h
  all_goals decide

theorem statusOf_code_ne_ok (e : ErrorCode) : statusOf e.code ≠ 0x00#8 := by
  cases e <;> decide

/-- Settles O13, from how a command ends when its checks hold and when they do not. -/
theorem errorsAreAllOrNothing : Obligations.ErrorsAreAllOrNothing := by
  intro i s
  rcases exec_accepted_or_raises i s with ⟨hacc, u, hu⟩ | ⟨hrej, e, he, hexec⟩
  · exact ⟨_, hu, .inl ⟨complete_status u, hacc⟩⟩
  · exact ⟨_, hexec, .inr ⟨hrej, _, statusOf_code_mem he, rfl⟩⟩

/-! ## The record of a run's codes (R186) -/

/-- The code a command writes is OK exactly when its checks hold. -/
theorem exec_status_eq_ok_iff {i : Instr} {s t : State} (h : exec i s = .next t) :
    t.status = 0x00 ↔ Accepted i := by
  rcases exec_accepted_or_raises i s with ⟨hacc, u, hu⟩ | ⟨hrej, e, -, hexec⟩
  · obtain rfl := Host.Outcome.next.inj (hu.symm.trans h)
    exact iff_of_true (complete_status u) hacc
  · obtain rfl := Host.Outcome.next.inj (hexec.symm.trans h)
    exact iff_of_false (statusOf_code_ne_ok e) hrej

theorem codes_succ {s t : State} (h : step s = .next t) (n : Nat) :
    codes (n + 1) s = t.status :: codes n t := by
  rw [codes, h]

theorem cleanRun_succ {s t : State} (h : step s = .next t) (n : Nat) :
    CleanRun (n + 1) s ↔ t.status = 0x00 ∧ CleanRun n t := by
  rw [CleanRun, codes_succ h, List.forall_mem_cons, CleanRun]

/-- Settles O8, by induction on the program: the first step records the code of the first command
and leaves the packets of the others. -/
theorem cleanRunsAreAcceptedPrograms : Obligations.CleanRunsAreAcceptedPrograms := by
  intro is
  induction is with
  | nil => exact fun s _ _ => ⟨rfl, iff_of_true (List.forall_mem_nil _) (List.forall_mem_nil _)⟩
  | cons i is ih =>
    intro s hwf hin
    obtain ⟨hi, his⟩ := List.forall_mem_cons.1 hwf
    obtain ⟨t, hexec, htin⟩ := exec_next i (consume (programBytes is) s)
    have hstep := (step_of_programBytes_cons hi hin).trans hexec
    obtain ⟨hlen, hclean⟩ := ih t his htin
    rw [List.length_cons, codes_succ hstep, cleanRun_succ hstep, List.forall_mem_cons,
      List.length_cons, hlen, hclean, exec_status_eq_ok_iff hexec]
    exact ⟨rfl, .rfl⟩

end Sys2Proof.Machine
